-- ==== Sys2Proof/Word.lean ====
section
/-!
DEFINITION. The words of the machine and the named values of two instruction fields.
Widths: spec/00_scope.md R2. Bit 0 is the least significant bit of every value (R4).
-/
namespace Sys2Proof

/-- A 4-bit value: one data-memory cell, one register, one literal N (R2). -/
abbrev Nibble := BitVec 4

/-- The number of a general register R0 to R15 (R11). -/
abbrev Reg := BitVec 4

/-- A data-memory address, 256 cells (R2, R26). -/
abbrev DataAddr := BitVec 8

/-- A program-memory address, 4096 words (R2, R15). -/
abbrev ProgAddr := BitVec 12

/-- An instruction word (R2, R60). -/
abbrev InstrWord := BitVec 12

/-- The G field of the bit instructions (R62, R182): R0, R1, R2, or RS, the active IN or OUT register. -/
inductive BitReg where
  | r0
  | r1
  | r2
  | rs
  deriving DecidableEq, Repr

/-- The F field of SKIP (R62, R68): C = 1, C = 0, Z = 1, Z = 0. -/
inductive Cond where
  | c
  | nc
  | z
  | nz
  deriving DecidableEq, Repr

end Sys2Proof
end

