-- ==== Sys2Proof/Machine/Flags.lean ====
section
/-!
DEFINITION. Every result and flag computation of the spec. Each converts the operands to integers, computes exactly
and narrows once (spec/00_scope.md R5); the flag table is spec/10_state.md R18.
-/
namespace Sys2Proof.Machine

open Sys2Proof

/-- A result and the three flags it gives; an instruction takes the flags its rule names. -/
structure AluResult where
  r : Nibble
  c : Bool
  z : Bool
  v : Bool
  deriving DecidableEq, Repr

/-- The zero flag of a 4-bit result (R18). -/
def isZero (r : Nibble) : Bool := decide (r = 0)

/-- Signed overflow of an exact signed result (R108). -/
def signedOverflow (t : Int) : Bool := decide (t > 7 ∨ t < -8)

/-- `a + b + cin` (R101, R102, R162): C is the carry out, V signed overflow (R108). -/
def addNibbles (a b : Nibble) (cin : Bool) : AluResult :=
  let s := a.toNat + b.toNat + cin.toNat
  let r := BitVec.ofNat 4 s
  let t := a.toInt + b.toInt + cin.toNat
  { r := r, c := decide (s > 15), z := isZero r, v := signedOverflow t }

/-- `a - b - bin` (R103, R104, R161): C is 1 when there is no borrow, V signed overflow (R108). -/
def subNibbles (a b : Nibble) (bin : Bool) : AluResult :=
  let d : Int := (a.toNat : Int) - b.toNat - bin.toNat
  let r := BitVec.ofInt 4 d
  let t := a.toInt - b.toInt - bin.toNat
  { r := r, c := decide (d ≥ 0), z := isZero r, v := signedOverflow t }

/-- `a + 1` with the flags of INC (R163): C and Z are both 1 exactly when the result is 0. -/
def incNibble (a : Nibble) : Nibble := BitVec.ofNat 4 (a.toNat + 1)

/-- `a - 1` (R164, R165). -/
def decNibble (a : Nibble) : Nibble := BitVec.ofInt 4 ((a.toNat : Int) - 1)

/-- The carry of DEC: 0 only when the result wrapped to 1111 (R164). -/
def decCarry (r : Nibble) : Bool := decide (r ≠ 15)

/-- The value of RRC: the old C on top, bits 3..1 below (R201). -/
def rotateRight (a : Nibble) (c : Bool) : Nibble := BitVec.ofBool c ++ a.extractLsb' 1 3

/-- The carry of RRC: bit 0 from before (R201). -/
def rotateCarry (a : Nibble) : Bool := a.getLsbD 0

/-- `1 << m` (R184 to R186). -/
def bitMask (m : BitVec 2) : Nibble := BitVec.ofNat 4 (2 ^ m.toNat)

/-- `v .OR. (1 << m)` (R184). -/
def setBit (v : Nibble) (m : BitVec 2) : Nibble := v ||| bitMask m

/-- `v .AND. (15 - (1 << m))` (R185). -/
def clearBit (v : Nibble) (m : BitVec 2) : Nibble := v &&& BitVec.ofNat 4 (15 - 2 ^ m.toNat)

/-- `v .XOR. (1 << m)` (R186). -/
def toggleBit (v : Nibble) (m : BitVec 2) : Nibble := v ^^^ bitMask m

/-- `bit(v, m)` (R5, R183). -/
def testBit (v : Nibble) (m : BitVec 2) : Bool := v.getLsbD m.toNat

end Sys2Proof.Machine
end

