-- ==== Sys2Proof/Config.lean ====
section
/-!
DEFINITION. What the spec leaves to the user of a model: the parameters of spec/00_scope.md R3 as data,
and the one free value, what the environment supplies at the IN register (20_memory.md R44, 93 U6).
The recommended values stand in Machine/Defaults.lean.
-/
namespace Sys2Proof

/-- What a write to cell 0x0C or 0x0D does when made by an instruction whose page carries no
JSR/PCL note (R3, R143, D3). -/
inductive OtherPcWrites where
  | refuse
  | trigger
  | plain
  deriving DecidableEq, Repr

/-- Whether the active IN and OUT locations talk to the environment (R3, R44, R45, D7). -/
inductive IoModel where
  | external
  | plain
  deriving DecidableEq, Repr

/-- What an access to a cell of page 15 other than 0xF3, 0xFA, 0xFB does (R3, R47, D8). -/
inductive SfrModel where
  | refuse
  | plain
  deriving DecidableEq, Repr

/-- The parameters of R3, but for `PM`, which is the field `pm` of the state. -/
structure Params where
  stackDepth    : Nat
  otherPcWrites : OtherPcWrites
  ioModel       : IoModel
  sfrModel      : SfrModel
  resetPc       : ProgAddr
  resetSp       : Nat
  resetIopos    : Bool
  deriving DecidableEq, Repr

/-- FREE VALUE: the nibble the environment supplies for the n-th Input() of the run when the launch's
supply holds no more (R44, U6; log 6). Nothing constrains it. -/
opaque Config.freeInput : Nat → Nibble

end Sys2Proof
end

