-- ==== Sys2Proof/Machine/Defaults.lean ====
section
/-!
DEFINITION. The recommended value of each parameter of spec/00_scope.md R3, in a file a repair may mend.
-/
namespace Sys2Proof.Machine

/-- R3: STACK_DEPTH 5 (D4), OTHER_PC_WRITES refuse (D3), IO_MODEL external (D7), SFR_MODEL refuse (D8),
RESET_PC 0x000, RESET_SP 0, RESET_IOPOS 0 (D10); log 1, 4. -/
def recommendedParams : Params where
  stackDepth := 5
  otherPcWrites := .refuse
  ioModel := .external
  sfrModel := .refuse
  resetPc := 0x000
  resetSp := 0
  resetIopos := false

end Sys2Proof.Machine
end

