-- ==== Sys2Proof/Machine/Memory.lean ====
section
/-!
DEFINITION. A memory as plain data: a list of (address, value) pairs in one canonical form, for data memory
(256 cells of 4 bits, R26) and for program memory (4096 words of 12 bits, R27) alike.
-/
namespace Sys2Proof.Machine

/-- The listed cells of a memory of `w`-bit values, each with its address. -/
abbrev Memory (w : Nat) := List (Nat × BitVec w)

/-- What an address that is not listed reads as. DESIGN CHOICE: the spec leaves the contents of an unwritten cell
open (R29, R241) and gives an unloaded program word to the user (R243); unsafe where a claim rests on it; log 2, 5. -/
def Memory.unlisted {w : Nat} : BitVec w := 0

/-- The value at an address. -/
def Memory.read {w : Nat} : Memory w → Nat → BitVec w
  | [], _ => Memory.unlisted
  | (k, u) :: m, a => if a = k then u else Memory.read m a

/-- The memory with an address no longer listed. -/
def Memory.remove {w : Nat} : Memory w → Nat → Memory w
  | [], _ => []
  | (k, u) :: m, a => if a = k then Memory.remove m a else (k, u) :: Memory.remove m a

/-- The memory with a value listed at an address, in its place by address. -/
def Memory.insert {w : Nat} : Memory w → Nat → BitVec w → Memory w
  | [], a, v => [(a, v)]
  | (k, u) :: m, a, v =>
    if a < k then (a, v) :: (k, u) :: m
    else if a = k then (a, v) :: m
    else (k, u) :: Memory.insert m a v

/-- The memory after a write. A value equal to what an unlisted address reads as is not listed. -/
def Memory.write {w : Nat} (m : Memory w) (a : Nat) (v : BitVec w) : Memory w :=
  if v = Memory.unlisted then Memory.remove m a else Memory.insert m a v

/-- The canonical form: addresses strictly rising and below `size`, no entry equal to what an unlisted address
reads as. -/
abbrev Memory.wf {w : Nat} (size : Nat) (m : Memory w) : Prop :=
  m.Pairwise (fun e e' => e.1 < e'.1) ∧ ∀ e ∈ m, e.1 < size ∧ e.2 ≠ Memory.unlisted

end Sys2Proof.Machine
end

