-- ==== Sys2Proof/Machine/State.lean ====
section
/-!
DEFINITION. The state, all of spec/10_state.md R10 and the model's own four fields (INVENTORY.md, "State"), the four
model faults of spec/60_exceptions.md R222, and the state after reset (10_state.md R29).
-/
namespace Sys2Proof.Machine

open Sys2Proof

structure State where
  /-- `pc` (R15): the address of the next word to fetch. -/
  pc         : ProgAddr
  /-- `SP` (R21): the number of return addresses on the stack. -/
  sp         : Nat
  /-- flag C (R18) -/
  c          : Bool
  /-- flag Z (R18) -/
  z          : Bool
  /-- flag V (R18) -/
  v          : Bool
  /-- `DM` (R26): registers, stack, alternate registers, WRFLAGS and the I/O cells among them (R11, R22, R25). -/
  dm         : Memory 4
  /-- `PM` (R27) -/
  pm         : Memory 12
  /-- the model's own: the parameters of R3; no step changes them (log 1) -/
  params     : Params
  /-- the model's own: what the environment will supply at IN, next first (R44, R243; log 6) -/
  inputs     : List Nibble
  /-- the model's own: the number of Input() reads made, the index of the free value (R44; log 6) -/
  inputsRead : Nat
  /-- the model's own: the Output events made, oldest first (R45, R50; log 7) -/
  outputs    : List Nibble
  deriving DecidableEq, Repr

/-- The kind of a data access, carried by a fault for information (R44, R45). -/
inductive Access where
  | read
  | write
  deriving DecidableEq, Repr

/-- The four model faults, a closed list (R222). `at_` is the address of the instruction that raised it, the pc from
before its fetch (R222); a faulting instruction changes nothing (R224), so no state goes with a fault. All four are
safe: the hardware goes on in a way the spec does not give. -/
inductive Fault where
  /-- Raised by Call() when SP = STACK_DEPTH (R142): MOV RX,RY, MOV RX,N, INC RY, DEC RY on JSR, and every class other
  writer of cell 0x0C when OTHER_PC_WRITES = trigger. Safe (D4). -/
  | stackOverflow (at_ : ProgAddr)
  /-- Raised by RET R0,N when SP = 0 (R202). Safe (D4). -/
  | stackUnderflow (at_ : ProgAddr)
  /-- Raised by MOV [XY],R0, MOV R0,[XY], MOV [NN],R0, MOV R0,[NN] on a cell of page 15 other than 0xF3, 0xFA, 0xFB when
  SFR_MODEL = refuse (R44, R45, R47). Safe (D8). -/
  | unmodelledSFR (at_ : ProgAddr) (addr : DataAddr) (access : Access)
  /-- Raised by a class other write to cell 0x0C or 0x0D when OTHER_PC_WRITES = refuse (R143), and by EXR N with 13 or
  more registers unless OTHER_PC_WRITES = plain (R181). Safe (D3). -/
  | unspecifiedPcWrite (at_ : ProgAddr) (cell : DataAddr)
  deriving DecidableEq, Repr

/-- Refusals of the model. No instruction of this model is refused. -/
inductive Refusal where
  /-- Raised by a refused arm of `exec`, for an instruction that has no meaning yet; safe. There is no such arm. -/
  | notModelled (mnemonic : String)
  deriving DecidableEq, Repr

/-- The state after reset under the given parameters, with nothing in program memory, no input supply and no event
(R29, R240). Data memory: WRFLAGS bit 1 is RESET_IOPOS, every unspecified cell reads what an unlisted cell reads
(log 2); the flags, unspecified too, are 0 (log 3). -/
def State.resetWith (p : Params) : State where
  pc := p.resetPc
  sp := p.resetSp
  c := false
  z := false
  v := false
  dm := if p.resetIopos then [(0xF3, 0b0010#4)] else []
  pm := []
  params := p
  inputs := []
  inputsRead := 0
  outputs := []

/-- The state after reset, every parameter at its recommended value (R3, R29). -/
def State.reset : State := State.resetWith recommendedParams

end Sys2Proof.Machine
end

