-- ==== Sys2Proof/Machine/Operands.lean ====
section
/-!
DEFINITION. Every operand form: register cells (spec/10_state.md R11), the pair address (20_memory.md R41), the
literals with a special reading (30_encoding.md R63), the RG operand and the I/O locations (44_exr_bit.md R182, 10_state.md
R24), the condition of SKIP (30_encoding.md R68), and the three-nibble program addresses (R41).
-/
namespace Sys2Proof.Machine

open Sys2Proof

/-- WRFLAGS (R23). -/
def wrflagsCell : DataAddr := 0xF3

/-- JSR, R12 (R12). -/
def jsrCell : DataAddr := 0x0C

/-- PCL, R13 (R12). -/
def pclCell : DataAddr := 0x0D

/-- PCM, R14 (R12). -/
def pcmCell : DataAddr := 0x0E

/-- PCH, R15 (R12). -/
def pchCell : DataAddr := 0x0F

/-- Register Ri is data-memory cell i (R11). -/
def regCell (i : Reg) : DataAddr := i.setWidth 8

/-- The address `x[X] : x[Y]`, RX in bits 7..4 (R41). -/
def pairAddr (hi lo : Nibble) : DataAddr := hi ++ lo

/-- A 12-bit program address from its high, middle and low nibble (R41). -/
def progAddr (hi mid lo : Nibble) : ProgAddr := hi ++ mid ++ lo

/-- `a[3:0]`, `a[7:4]`, `a[11:8]` for k = 0, 1, 2 (R5, R142). -/
def progNibble (a : ProgAddr) (k : Nat) : Nibble := a.extractLsb' (4 * k) 4

/-- The low nibble of MOV PC's literal, for R14 (R127). -/
def nnLow (nn : BitVec 8) : Nibble := nn.extractLsb' 0 4

/-- The high nibble of MOV PC's literal, for R15 (R127). -/
def nnHigh (nn : BitVec 8) : Nibble := nn.extractLsb' 4 4

/-- JR's offset, sign-extended to 12 bits (R63, R140). -/
def jrOffset (nn : BitVec 8) : ProgAddr := nn.signExtend 12

/-- EXR's count: N, but 0 means 16 (R63, R181). -/
def exrCount (n : Nibble) : Nat := if n = 0 then 16 else n.toNat

/-- SKIP's count: M, but 0 means 4 (R63, R68). -/
def skipCount (m : BitVec 2) : Nat := if m = 0 then 4 else m.toNat

/-- The cell of the alternate set that EXR pairs with register i (R25, R181). -/
def altCell (i : Nat) : DataAddr := BitVec.ofNat 8 (0xE0 + i)

/-- The k-th cell of stack level `level`, low nibble first (R22). -/
def stackCell (level k : Nat) : DataAddr := BitVec.ofNat 8 (0x10 + 3 * level + k)

/-- `DM[a]`, the raw cell (R6). -/
def State.cell (s : State) (a : DataAddr) : Nibble := s.dm.read a.toNat

/-- IOPOS, bit 1 of WRFLAGS read raw (R23, R24). -/
def State.iopos (s : State) : Bool := (s.cell wrflagsCell).getLsbD 1

/-- `IN_ADDR` (R24). -/
def State.inAddr (s : State) : DataAddr := if s.iopos then 0xFB else 0x0B

/-- `OUT_ADDR` (R24). -/
def State.outAddr (s : State) : DataAddr := if s.iopos then 0xFA else 0x0A

/-- `BitAddr(G, test)`: the cell BIT tests (R182). -/
def State.testAddr (s : State) : BitReg → DataAddr
  | .r0 => 0x00
  | .r1 => 0x01
  | .r2 => 0x02
  | .rs => s.inAddr

/-- `BitAddr(G, modify)`: the cell BSET, BCLR and BTG change (R182). -/
def State.modifyAddr (s : State) : BitReg → DataAddr
  | .r0 => 0x00
  | .r1 => 0x01
  | .r2 => 0x02
  | .rs => s.outAddr

/-- The condition of SKIP (R68, R203). -/
def State.condHolds (s : State) : Cond → Bool
  | .c => s.c
  | .nc => !s.c
  | .z => s.z
  | .nz => !s.z

end Sys2Proof.Machine
end

