-- ==== Sys2Proof/Machine/Ops.lean ====
section
/-!
DEFINITION. The primitives of spec/00_scope.md R7: reading and writing a cell (20_memory.md R44, R45), the jump and the call
(42_jr_and_pc_writes.md R141, R142), which writes start them (R143, R144), and the fault discipline (60_exceptions.md
R224): what a fault condition needs is tested on the state before the instruction, and nothing is changed by it.
This machine takes no exception and has no return from one (60_exceptions.md R220, R221): there is no such operation.
-/
namespace Sys2Proof.Machine

open Sys2Proof

/-! The named updates of the state. -/

/-- `pc <- t` (R7). -/
def State.setPc (s : State) (t : ProgAddr) : State := { s with pc := t }

/-- The stack pointer takes a value; only a call and RET do this (R21). -/
def State.setSp (s : State) (n : Nat) : State := { s with sp := n }

/-- Flag C takes a value. -/
def State.setC (s : State) (b : Bool) : State := { s with c := b }

/-- Flag Z takes a value. -/
def State.setZ (s : State) (b : Bool) : State := { s with z := b }

/-- Flag V takes a value. -/
def State.setV (s : State) (b : Bool) : State := { s with v := b }

/-- `DM[a] <- v`, the raw store (R6). -/
def State.setCell (s : State) (a : DataAddr) (v : Nibble) : State := { s with dm := s.dm.write a.toNat v }

/-- `emit Output(v)` (R45). -/
def State.emit (s : State) (v : Nibble) : State := { s with outputs := s.outputs ++ [v] }

/-- One Input() has been made: the supply is one shorter (R44). -/
def State.tookInput (s : State) : State := { s with inputs := s.inputs.tail, inputsRead := s.inputsRead + 1 }

/-- The address of the instruction being executed: `pc` is already incremented (R15, R222). -/
def State.instrAddr (s : State) : ProgAddr := s.pc - 1

/-- `Input()` (R44): the next nibble of the supply, and a free value when the supply holds no more (log 6). -/
def State.input (s : State) : Nibble :=
  match s.inputs with
  | n :: _ => n
  | [] => Config.freeInput s.inputsRead

/-! Reading (R44). Every read of an instruction is from the state before it, each distinct cell once (R7, R120): `readCell`
is the value, `afterReads` the state once the cells of a list have been read. Only the active IN location has an effect on
being read, so one Input() is made when it is among them, however often. EXR, which reads between its writes, applies the
two at each of its accesses. -/

/-- A read of the cell is a read of the environment (R44). -/
def State.readsInput (s : State) (a : DataAddr) : Bool := decide (a = s.inAddr ∧ s.params.ioModel = .external)

/-- `MemRead(a, 1)` past its check of page 15 (R44). -/
def State.readCell (s : State) (a : DataAddr) : Nibble := if s.readsInput a then s.input else s.cell a

/-- The state once each of the listed cells has been read once (R44, R120). -/
def State.afterReads (s : State) (as : List DataAddr) : State := if as.any s.readsInput then s.tookInput else s

/-- `x[i]` (R7). A register's cell is below page 15, so no check applies. -/
def State.reg (s : State) (i : Reg) : Nibble := s.readCell (regCell i)

/-- The check of page 15 that MemRead and MemWrite begin with (R44, R45, R47). -/
def State.sfrFault (s : State) (a : DataAddr) (k : Access) : Option Fault :=
  if 0xF0 ≤ a.toNat ∧ a ≠ 0xF3 ∧ a ≠ 0xFA ∧ a ≠ 0xFB ∧ s.params.sfrModel = .refuse then
    some (.unmodelledSFR s.instrAddr a k)
  else none

/-! Writing (R45). -/

/-- `MemWrite(a, 1, v)` past its check of page 15 (R45). -/
def State.writeCell (s : State) (a : DataAddr) (v : Nibble) : State :=
  if a = s.outAddr ∧ s.params.ioModel = .external then (s.setCell a v).emit v else s.setCell a v

/-! Jump and call (R141, R142). -/

/-- `Jump()` (R141; D1, log 9). -/
def State.jump (s : State) : State := s.setPc (progAddr (s.cell pchCell) (s.cell pcmCell) (s.cell pclCell))

/-- The push of `Call()`: `pc` into the three cells of level SP, low nibble first, then SP + 1 (R142; D2, log 10). -/
def State.pushPc (s : State) : State :=
  (((s.setCell (stackCell s.sp 0) (progNibble s.pc 0)).setCell (stackCell s.sp 1) (progNibble s.pc 1)).setCell
    (stackCell s.sp 2) (progNibble s.pc 2)).setSp (s.sp + 1)

/-- `Call()` past its check of the stack (R142; D2, log 10). -/
def State.call (s : State) : State :=
  let s' := s.pushPc
  s'.setPc (progAddr (s'.cell pchCell) (s'.cell pcmCell) (s'.cell jsrCell))

/-- The check that `Call()` begins with (R142; D4, log 12). -/
def State.callFault (s : State) : Option Fault :=
  if s.params.stackDepth ≤ s.sp then some (.stackOverflow s.instrAddr) else none

/-- The return address of stack level `level` (R22, R202). -/
def State.returnAddr (s : State) (level : Nat) : ProgAddr :=
  progAddr (s.cell (stackCell level 2)) (s.cell (stackCell level 1)) (s.cell (stackCell level 0))

/-- The two classes of instructions that can write cells 0x0C and 0x0D (R144). -/
inductive PcClass where
  | named
  | other
  deriving DecidableEq, Repr

/-- The write starts a call (cell 0x0C) or a jump (cell 0x0D) (R143). -/
def State.triggers (s : State) (a : DataAddr) (k : PcClass) : Bool :=
  decide ((a = jsrCell ∨ a = pclCell) ∧ (k = .named ∨ s.params.otherPcWrites = .trigger))

/-- The fault the write's `PcWriteEffect` raises (R143), known before the write is made (R224). -/
def State.pcWriteFault (s : State) (a : DataAddr) (k : PcClass) : Option Fault :=
  if s.triggers a k then
    if a = jsrCell then s.callFault else none
  else if (a = jsrCell ∨ a = pclCell) ∧ s.params.otherPcWrites = .refuse then
    some (.unspecifiedPcWrite s.instrAddr a)
  else none

/-- `PcWriteEffect(a, k)` where it raises no fault (R143). -/
def State.pcWriteEffect (s : State) (a : DataAddr) (k : PcClass) : State :=
  if s.triggers a k then
    if a = jsrCell then s.call else s.jump
  else s

/-- The write of a cell followed by its `PcWriteEffect`, where neither faults (R7, R123, R143). -/
def State.putCell (s : State) (a : DataAddr) (v : Nibble) (k : PcClass) : State :=
  (s.writeCell a v).pcWriteEffect a k

/-- The end of an instruction: its fault, or its next state (R224). -/
def finish (f : Option Fault) (s : State) : Host.Outcome State Fault Refusal :=
  match f with
  | some e => .fault e
  | none => .next s

/-- `x[i] <- v` of class `k` as the end of an instruction (R7). The instruction's flags are set in `s` beforehand; they lie
outside data memory and no jump or call reads them, so R145's order, write, flags, transfer, gives the same state. -/
def endWithReg (s : State) (i : Reg) (v : Nibble) (k : PcClass) : Host.Outcome State Fault Refusal :=
  finish (s.pcWriteFault (regCell i) k) (s.putCell (regCell i) v k)

/-- A store to data memory as the end of an instruction: the check of page 15, then the write, then the PC effect of
class other (R45, R123, R125). At most one of the two faults can hold (R223). -/
def endWithStore (s : State) (a : DataAddr) (v : Nibble) : Host.Outcome State Fault Refusal :=
  finish ((s.sfrFault a .write).or (s.pcWriteFault a .other)) (s.putCell a v .other)

end Sys2Proof.Machine
end

