-- ==== Sys2Proof/Machine/AluRxRy.lean ====
section
/-!
DEFINITION. The two-register arithmetic and logic instructions, spec/40_alu_rx_ry.md R100 to R108. The write of RX is of class
other (R100).
-/
namespace Sys2Proof.Machine

open Sys2Proof

/-- The end of ADD, ADC, SUB, SBB RX,RY: RX takes the result, C, Z, V its flags (R100). -/
def endArith (s : State) (x y : Reg) (q : AluResult) : Host.Outcome State Fault Refusal :=
  endWithReg ((((s.afterReads [regCell x, regCell y]).setC q.c).setZ q.z).setV q.v) x q.r .other

/-- The end of OR, AND, XOR RX,RY: RX takes the result, Z its flag; C and V keep their values (R105, R18). -/
def endLogic (s : State) (x y : Reg) (r : Nibble) : Host.Outcome State Fault Refusal :=
  endWithReg ((s.afterReads [regCell x, regCell y]).setZ (isZero r)) x r .other

/-- ADD RX,RY (R101). -/
def execAddRxRy (x y : Reg) (s : State) : Host.Outcome State Fault Refusal :=
  endArith s x y (addNibbles (s.reg x) (s.reg y) false)

/-- ADC RX,RY (R102; C1). -/
def execAdcRxRy (x y : Reg) (s : State) : Host.Outcome State Fault Refusal :=
  endArith s x y (addNibbles (s.reg x) (s.reg y) s.c)

/-- SUB RX,RY (R103; C2). -/
def execSubRxRy (x y : Reg) (s : State) : Host.Outcome State Fault Refusal :=
  endArith s x y (subNibbles (s.reg x) (s.reg y) false)

/-- SBB RX,RY (R104; C3): the borrow in is NOT C. -/
def execSbbRxRy (x y : Reg) (s : State) : Host.Outcome State Fault Refusal :=
  endArith s x y (subNibbles (s.reg x) (s.reg y) (!s.c))

/-- OR RX,RY (R105). -/
def execOrRxRy (x y : Reg) (s : State) : Host.Outcome State Fault Refusal :=
  endLogic s x y (s.reg x ||| s.reg y)

/-- AND RX,RY (R106). -/
def execAndRxRy (x y : Reg) (s : State) : Host.Outcome State Fault Refusal :=
  endLogic s x y (s.reg x &&& s.reg y)

/-- XOR RX,RY (R107). -/
def execXorRxRy (x y : Reg) (s : State) : Host.Outcome State Fault Refusal :=
  endLogic s x y (s.reg x ^^^ s.reg y)

end Sys2Proof.Machine
end

