-- ==== Sys2Proof/Machine/Control.lean ====
section
/-!
DEFINITION. JR (spec/42_jr_and_pc_writes.md R140) and RRC, RET, SKIP (spec/45_rrc_ret_skip.md R200 to R203). Arithmetic on `pc`
is modulo 4096 (10_state.md R16).
-/
namespace Sys2Proof.Machine

open Sys2Proof

/-- `pc <- (pc + m) mod 4096`: the next m words are passed over (R16, R165, R203). -/
def State.skip (s : State) (m : Nat) : State := s.setPc (s.pc + BitVec.ofNat 12 m)

/-- JR NN (R140). -/
def execJrNn (nn : BitVec 8) (s : State) : Host.Outcome State Fault Refusal :=
  .next (s.setPc (s.pc + jrOffset nn))

/-- RRC RY (R201), class other. -/
def execRrcRy (y : Reg) (s : State) : Host.Outcome State Fault Refusal :=
  let r := rotateRight (s.reg y) s.c
  endWithReg (((s.afterReads [regCell y]).setC (rotateCarry (s.reg y))).setZ (isZero r)) y r .other

/-- RET R0,N (R202): SP is decremented first and the decremented value indexes the stack. -/
def execRetR0N (n : Nibble) (s : State) : Host.Outcome State Fault Refusal :=
  let s' := (s.writeCell (regCell 0) n).setSp (s.sp - 1)
  finish (if s.sp = 0 then some (.stackUnderflow s.instrAddr) else none) (s'.setPc (s'.returnAddr s'.sp))

/-- SKIP F,M (R203). -/
def execSkipFM (f : Cond) (m : BitVec 2) (s : State) : Host.Outcome State Fault Refusal :=
  .next (if s.condHolds f then s.skip (skipCount m) else s)

end Sys2Proof.Machine
end

