-- ==== Sys2Proof/Machine/ExrBit.lean ====
section
/-!
DEFINITION. EXR and the bit instructions, spec/44_exr_bit.md R180 to R186. The only cells of page 15 they reach are 0xFA and
0xFB, so the check of page 15 applies to none of them (R180).
-/
namespace Sys2Proof.Machine

open Sys2Proof

/-- One exchange of EXR: cell i with cell 0xE0 + i, both read, then both written (R181). -/
def State.exchange (s : State) (i : Nat) : State :=
  let r : DataAddr := BitVec.ofNat 8 i
  let s' := s.afterReads [r]
  let s'' := s'.afterReads [altCell i]
  (s''.writeCell r (s'.readCell (altCell i))).writeCell (altCell i) (s.readCell r)

/-- The first n exchanges, index 0 first (R181, R43). -/
def State.exchangeFirst (s : State) : Nat → State
  | 0 => s
  | k + 1 => (State.exchangeFirst s k).exchange k

/-- EXR with 13 registers or more would write JSR, and PCL with 14: refused unless OTHER_PC_WRITES = plain (R181). -/
def State.exrFault (s : State) (n : Nat) : Option Fault :=
  if 13 ≤ n ∧ s.params.otherPcWrites ≠ .plain then some (.unspecifiedPcWrite s.instrAddr jsrCell) else none

/-- EXR N (R181). -/
def execExrN (n : Nibble) (s : State) : Host.Outcome State Fault Refusal :=
  finish (s.exrFault (exrCount n)) (s.exchangeFirst (exrCount n))

/-- BIT RG,M (R183): Z is the complement of the bit, and nothing else is written. -/
def execBitRgM (g : BitReg) (m : BitVec 2) (s : State) : Host.Outcome State Fault Refusal :=
  .next ((s.afterReads [s.testAddr g]).setZ (!testBit (s.readCell (s.testAddr g)) m))

/-- The end of BSET, BCLR, BTG: the cell takes the changed value, always written (R184). -/
def endModify (s : State) (g : BitReg) (f : Nibble → Nibble) : Host.Outcome State Fault Refusal :=
  .next ((s.afterReads [s.modifyAddr g]).writeCell (s.modifyAddr g) (f (s.readCell (s.modifyAddr g))))

/-- BSET RG,M (R184). -/
def execBsetRgM (g : BitReg) (m : BitVec 2) (s : State) : Host.Outcome State Fault Refusal :=
  endModify s g (fun v => setBit v m)

/-- BCLR RG,M (R185). -/
def execBclrRgM (g : BitReg) (m : BitVec 2) (s : State) : Host.Outcome State Fault Refusal :=
  endModify s g (fun v => clearBit v m)

/-- BTG RG,M (R186). -/
def execBtgRgM (g : BitReg) (m : BitVec 2) (s : State) : Host.Outcome State Fault Refusal :=
  endModify s g (fun v => toggleBit v m)

end Sys2Proof.Machine
end

