-- ==== Sys2Proof/Machine/Mov.lean ====
section
/-!
DEFINITION. The seven MOV instructions, spec/41_mov.md R120 to R127. None changes a flag.
-/
namespace Sys2Proof.Machine

open Sys2Proof

/-- The address `x[X] : x[Y]` of the pair forms (R41, R123, R124). -/
def State.pairOf (s : State) (x y : Reg) : DataAddr := pairAddr (s.reg x) (s.reg y)

/-- MOV RX,RY (R121), class named. -/
def execMovRxRy (x y : Reg) (s : State) : Host.Outcome State Fault Refusal :=
  endWithReg (s.afterReads [regCell y]) x (s.reg y) .named

/-- MOV RX,N (R122), class named. -/
def execMovRxN (x : Reg) (n : Nibble) (s : State) : Host.Outcome State Fault Refusal :=
  endWithReg s x n .named

/-- MOV [XY],R0 (R123). -/
def execMovXyR0 (x y : Reg) (s : State) : Host.Outcome State Fault Refusal :=
  endWithStore (s.afterReads [regCell x, regCell y, regCell 0]) (s.pairOf x y) (s.reg 0)

/-- MOV R0,[XY] (R124). The loaded cell is one of the cells read; where it is the register cell an address nibble came
from, the one value read serves both (R120; log 8). -/
def execMovR0Xy (x y : Reg) (s : State) : Host.Outcome State Fault Refusal :=
  finish (s.sfrFault (s.pairOf x y) .read)
    ((s.afterReads [regCell x, regCell y, s.pairOf x y]).writeCell (regCell 0) (s.readCell (s.pairOf x y)))

/-- MOV [NN],R0 (R125). -/
def execMovNnR0 (nn : DataAddr) (s : State) : Host.Outcome State Fault Refusal :=
  endWithStore (s.afterReads [regCell 0]) nn (s.reg 0)

/-- MOV R0,[NN] (R126). -/
def execMovR0Nn (nn : DataAddr) (s : State) : Host.Outcome State Fault Refusal :=
  finish (s.sfrFault nn .read) ((s.afterReads [nn]).writeCell (regCell 0) (s.readCell nn))

/-- MOV PC,NN (R127): loads PCM (R14) and PCH (R15); the program counter is not changed. -/
def execMovPcNn (nn : BitVec 8) (s : State) : Host.Outcome State Fault Refusal :=
  .next ((s.writeCell (regCell 14) (nnLow nn)).writeCell (regCell 15) (nnHigh nn))

end Sys2Proof.Machine
end

