-- ==== Sys2Proof/Machine/R0Literal.lean ====
section
/-!
DEFINITION. The R0-with-literal instructions, INC, DEC and DSZ, spec/43_r0_literal_inc_dec.md R160 to R168. V keeps its value
in all eight (R160). R0's cell, 0x00, is never an I/O location and starts no jump or call.
-/
namespace Sys2Proof.Machine

open Sys2Proof

/-- CP R0,N (R161): only C and Z are written. -/
def execCpR0N (n : Nibble) (s : State) : Host.Outcome State Fault Refusal :=
  let q := subNibbles (s.reg 0) n false
  .next (((s.afterReads [regCell 0]).setC q.c).setZ q.z)

/-- ADD R0,N (R162). -/
def execAddR0N (n : Nibble) (s : State) : Host.Outcome State Fault Refusal :=
  let q := addNibbles (s.reg 0) n false
  .next ((((s.afterReads [regCell 0]).setC q.c).setZ q.z).writeCell (regCell 0) q.r)

/-- INC RY (R163), class named: C and Z are both 1 exactly when the result is 0. -/
def execIncRy (y : Reg) (s : State) : Host.Outcome State Fault Refusal :=
  let r := incNibble (s.reg y)
  endWithReg (((s.afterReads [regCell y]).setC (isZero r)).setZ (isZero r)) y r .named

/-- DEC RY (R164; C13), class named. -/
def execDecRy (y : Reg) (s : State) : Host.Outcome State Fault Refusal :=
  let r := decNibble (s.reg y)
  endWithReg (((s.afterReads [regCell y]).setC (decCarry r)).setZ (isZero r)) y r .named

/-- DSZ RY (R165), class other. A jump or call the write starts replaces the skip (R145; log 22). -/
def execDszRy (y : Reg) (s : State) : Host.Outcome State Fault Refusal :=
  let r := decNibble (s.reg y)
  let s' := s.afterReads [regCell y]
  let t := s'.putCell (regCell y) r .other
  finish (s'.pcWriteFault (regCell y) .other)
    (if r = 0 ∧ s'.triggers (regCell y) .other = false then t.skip 1 else t)

/-- The end of OR, AND, XOR R0,N: R0 takes the result, C the given value, Z the flag of the result (R166 to R168). -/
def endLiteralLogic (s : State) (r : Nibble) (carry : Bool) : Host.Outcome State Fault Refusal :=
  .next ((((s.afterReads [regCell 0]).setC carry).setZ (isZero r)).writeCell (regCell 0) r)

/-- OR R0,N (R166): C <- 1. -/
def execOrR0N (n : Nibble) (s : State) : Host.Outcome State Fault Refusal :=
  endLiteralLogic s (s.reg 0 ||| n) true

/-- AND R0,N (R167): C <- 0. -/
def execAndR0N (n : Nibble) (s : State) : Host.Outcome State Fault Refusal :=
  endLiteralLogic s (s.reg 0 &&& n) false

/-- XOR R0,N (R168): C <- NOT C. -/
def execXorR0N (n : Nibble) (s : State) : Host.Outcome State Fault Refusal :=
  endLiteralLogic s (s.reg 0 ^^^ n) (!s.c)

end Sys2Proof.Machine
end

