-- ==== Sys2Proof/Syntax.lean ====
section
/-!
DEFINITION. The instructions, one constructor per row of spec/opcode_table.json, in the order of
spec/30_encoding.md R65 and R66. Operands are the fields of R62, register numbers and literals as the word holds
them (EXR's 0 for 16 and SKIP's 0 for 4 are read in Machine/Operands.lean).
-/
namespace Sys2Proof

inductive Instr where
  /-- ADD RX,RY, R101 -/
  | addRxRy (x y : Reg)
  /-- ADC RX,RY, R102 -/
  | adcRxRy (x y : Reg)
  /-- SUB RX,RY, R103 -/
  | subRxRy (x y : Reg)
  /-- SBB RX,RY, R104 -/
  | sbbRxRy (x y : Reg)
  /-- OR RX,RY, R105 -/
  | orRxRy (x y : Reg)
  /-- AND RX,RY, R106 -/
  | andRxRy (x y : Reg)
  /-- XOR RX,RY, R107 -/
  | xorRxRy (x y : Reg)
  /-- MOV RX,RY, R121 -/
  | movRxRy (x y : Reg)
  /-- MOV RX,N, R122 -/
  | movRxN (x : Reg) (n : Nibble)
  /-- MOV [XY],R0, R123 -/
  | movXyR0 (x y : Reg)
  /-- MOV R0,[XY], R124 -/
  | movR0Xy (x y : Reg)
  /-- MOV [NN],R0, R125 -/
  | movNnR0 (nn : DataAddr)
  /-- MOV R0,[NN], R126 -/
  | movR0Nn (nn : DataAddr)
  /-- MOV PC,NN, R127 -/
  | movPcNn (nn : BitVec 8)
  /-- JR NN, R140 -/
  | jrNn (nn : BitVec 8)
  /-- CP R0,N, R161 -/
  | cpR0N (n : Nibble)
  /-- ADD R0,N, R162 -/
  | addR0N (n : Nibble)
  /-- INC RY, R163 -/
  | incRy (y : Reg)
  /-- DEC RY, R164 -/
  | decRy (y : Reg)
  /-- DSZ RY, R165 -/
  | dszRy (y : Reg)
  /-- OR R0,N, R166 -/
  | orR0N (n : Nibble)
  /-- AND R0,N, R167 -/
  | andR0N (n : Nibble)
  /-- XOR R0,N, R168 -/
  | xorR0N (n : Nibble)
  /-- EXR N, R181 -/
  | exrN (n : Nibble)
  /-- BIT RG,M, R183 -/
  | bitRgM (g : BitReg) (m : BitVec 2)
  /-- BSET RG,M, R184 -/
  | bsetRgM (g : BitReg) (m : BitVec 2)
  /-- BCLR RG,M, R185 -/
  | bclrRgM (g : BitReg) (m : BitVec 2)
  /-- BTG RG,M, R186 -/
  | btgRgM (g : BitReg) (m : BitVec 2)
  /-- RRC RY, R201 -/
  | rrcRy (y : Reg)
  /-- RET R0,N, R202 -/
  | retR0N (n : Nibble)
  /-- SKIP F,M, R203 -/
  | skipFM (f : Cond) (m : BitVec 2)
  deriving DecidableEq, Repr

end Sys2Proof
end

