-- ==== Sys2Proof/Machine/Dispatch.lean ====
section
/-!
DEFINITION. The meaning of each instruction, one arm per constructor. `pc` has already been incremented (10_state.md R15).
-/
namespace Sys2Proof.Machine

open Sys2Proof

def exec (i : Instr) (s : State) : Host.Outcome State Fault Refusal :=
  match i with
  | .addRxRy x y => Sys2Proof.Machine.execAddRxRy x y s
  | .adcRxRy x y => Sys2Proof.Machine.execAdcRxRy x y s
  | .subRxRy x y => Sys2Proof.Machine.execSubRxRy x y s
  | .sbbRxRy x y => Sys2Proof.Machine.execSbbRxRy x y s
  | .orRxRy x y => Sys2Proof.Machine.execOrRxRy x y s
  | .andRxRy x y => Sys2Proof.Machine.execAndRxRy x y s
  | .xorRxRy x y => Sys2Proof.Machine.execXorRxRy x y s
  | .movRxRy x y => Sys2Proof.Machine.execMovRxRy x y s
  | .movRxN x n => Sys2Proof.Machine.execMovRxN x n s
  | .movXyR0 x y => Sys2Proof.Machine.execMovXyR0 x y s
  | .movR0Xy x y => Sys2Proof.Machine.execMovR0Xy x y s
  | .movNnR0 nn => Sys2Proof.Machine.execMovNnR0 nn s
  | .movR0Nn nn => Sys2Proof.Machine.execMovR0Nn nn s
  | .movPcNn nn => Sys2Proof.Machine.execMovPcNn nn s
  | .jrNn nn => Sys2Proof.Machine.execJrNn nn s
  | .cpR0N n => Sys2Proof.Machine.execCpR0N n s
  | .addR0N n => Sys2Proof.Machine.execAddR0N n s
  | .incRy y => Sys2Proof.Machine.execIncRy y s
  | .decRy y => Sys2Proof.Machine.execDecRy y s
  | .dszRy y => Sys2Proof.Machine.execDszRy y s
  | .orR0N n => Sys2Proof.Machine.execOrR0N n s
  | .andR0N n => Sys2Proof.Machine.execAndR0N n s
  | .xorR0N n => Sys2Proof.Machine.execXorR0N n s
  | .exrN n => Sys2Proof.Machine.execExrN n s
  | .bitRgM g m => Sys2Proof.Machine.execBitRgM g m s
  | .bsetRgM g m => Sys2Proof.Machine.execBsetRgM g m s
  | .bclrRgM g m => Sys2Proof.Machine.execBclrRgM g m s
  | .btgRgM g m => Sys2Proof.Machine.execBtgRgM g m s
  | .rrcRy y => Sys2Proof.Machine.execRrcRy y s
  | .retR0N n => Sys2Proof.Machine.execRetR0N n s
  | .skipFM f m => Sys2Proof.Machine.execSkipFM f m s

end Sys2Proof.Machine
end

