-- ==== Sys2Proof/Decode.lean ====
section
/-!
DEFINITION. Decoding and encoding, spec/30_encoding.md R60 to R69. Every 12-bit word is an instruction (R67), so
`decode` is total and never fails. `decodeNat` reads a number of any size and refuses, by name, one that is no 12-bit
word. `encode` is written from the same tables, R65 and R66.
-/
namespace Sys2Proof

/-- `ir[11:8]`, the primary opcode (R60). -/
def fieldOp (ir : InstrWord) : BitVec 4 := ir.extractLsb' 8 4

/-- `ir[7:4]`: the sub-opcode, or X (R62). -/
def fieldX (ir : InstrWord) : BitVec 4 := ir.extractLsb' 4 4

/-- `ir[3:0]`: Y or N (R62). -/
def fieldY (ir : InstrWord) : BitVec 4 := ir.extractLsb' 0 4

/-- `ir[7:0]`: NN (R62). -/
def fieldNN (ir : InstrWord) : BitVec 8 := ir.extractLsb' 0 8

/-- `ir[3:2]`: G or F (R62). -/
def fieldG (ir : InstrWord) : BitVec 2 := ir.extractLsb' 2 2

/-- `ir[1:0]`: M (R62). -/
def fieldM (ir : InstrWord) : BitVec 2 := ir.extractLsb' 0 2

/-- The register the G field names (R62, R182). -/
def bitRegOf : BitVec 2 → BitReg
  | 0#2 => .r0
  | 1#2 => .r1
  | 2#2 => .r2
  | _ => .rs

/-- The G field of a register name (R62, R182). -/
def bitRegBits : BitReg → BitVec 2
  | .r0 => 0#2
  | .r1 => 1#2
  | .r2 => 2#2
  | .rs => 3#2

/-- The condition the F field names (R68; codes other than 01: log 14). -/
def condOf : BitVec 2 → Cond
  | 0#2 => .c
  | 1#2 => .nc
  | 2#2 => .z
  | _ => .nz

/-- The F field of a condition (R68). -/
def condBits : Cond → BitVec 2
  | .c => 0#2
  | .nc => 1#2
  | .z => 2#2
  | .nz => 3#2

/-- The sub-opcode table R66, `ir[7:4]` under primary opcode 0000. -/
def decodeSub (ir : InstrWord) : Instr :=
  match fieldX ir with
  | 0x0#4 => .cpR0N (fieldY ir)
  | 0x1#4 => .addR0N (fieldY ir)
  | 0x2#4 => .incRy (fieldY ir)
  | 0x3#4 => .decRy (fieldY ir)
  | 0x4#4 => .dszRy (fieldY ir)
  | 0x5#4 => .orR0N (fieldY ir)
  | 0x6#4 => .andR0N (fieldY ir)
  | 0x7#4 => .xorR0N (fieldY ir)
  | 0x8#4 => .exrN (fieldY ir)
  | 0x9#4 => .bitRgM (bitRegOf (fieldG ir)) (fieldM ir)
  | 0xA#4 => .bsetRgM (bitRegOf (fieldG ir)) (fieldM ir)
  | 0xB#4 => .bclrRgM (bitRegOf (fieldG ir)) (fieldM ir)
  | 0xC#4 => .btgRgM (bitRegOf (fieldG ir)) (fieldM ir)
  | 0xD#4 => .rrcRy (fieldY ir)
  | 0xE#4 => .retR0N (fieldY ir)
  | _ => .skipFM (condOf (fieldG ir)) (fieldM ir)

/-- The primary opcode table R65, `ir[11:8]` (R64). -/
def decode (ir : InstrWord) : Instr :=
  match fieldOp ir with
  | 0x0#4 => decodeSub ir
  | 0x1#4 => .addRxRy (fieldX ir) (fieldY ir)
  | 0x2#4 => .adcRxRy (fieldX ir) (fieldY ir)
  | 0x3#4 => .subRxRy (fieldX ir) (fieldY ir)
  | 0x4#4 => .sbbRxRy (fieldX ir) (fieldY ir)
  | 0x5#4 => .orRxRy (fieldX ir) (fieldY ir)
  | 0x6#4 => .andRxRy (fieldX ir) (fieldY ir)
  | 0x7#4 => .xorRxRy (fieldX ir) (fieldY ir)
  | 0x8#4 => .movRxRy (fieldX ir) (fieldY ir)
  | 0x9#4 => .movRxN (fieldX ir) (fieldY ir)
  | 0xA#4 => .movXyR0 (fieldX ir) (fieldY ir)
  | 0xB#4 => .movR0Xy (fieldX ir) (fieldY ir)
  | 0xC#4 => .movNnR0 (fieldNN ir)
  | 0xD#4 => .movR0Nn (fieldNN ir)
  | 0xE#4 => .movPcNn (fieldNN ir)
  | _ => .jrNn (fieldNN ir)

/-- Why a number is refused as an instruction word. -/
inductive DecodeError where
  /-- it has a bit at or above bit 12: every instruction is one 12-bit word (R60) -/
  | widerThanTwelveBits (w : Nat)
  deriving DecidableEq, Repr

/-- The instruction a number stands for, refused by name where it is no 12-bit word (R60, R69; log 29). -/
def decodeNat (w : Nat) : Except DecodeError Instr :=
  if w < 4096 then .ok (decode (BitVec.ofNat 12 w)) else .error (.widerThanTwelveBits w)

/-- The instruction the decoder reads from an opcode-table word: bit 0 is bit 0 of the one program-memory word, whatever
whole number of bytes `nbits` counts for the row (R60). -/
def decodeTableWord (_nbits w : Nat) : Option Instr := (decodeNat w).toOption

/-- Formats RR, RN: opcode, X, and Y or N (R61). -/
def wordXY (op x y : BitVec 4) : InstrWord := op ++ x ++ y

/-- Format NN (R61). -/
def wordNN (op : BitVec 4) (nn : BitVec 8) : InstrWord := op ++ nn

/-- Formats 0N, 0Y (R61). -/
def wordSub (sub y : BitVec 4) : InstrWord := 0#4 ++ sub ++ y

/-- Formats 0GM, 0FM (R61). -/
def wordGM (sub : BitVec 4) (g m : BitVec 2) : InstrWord := 0#4 ++ sub ++ g ++ m

/-- The word of an instruction, from R65 and R66. -/
def encode : Instr → InstrWord
  | .addRxRy x y => wordXY 0x1#4 x y
  | .adcRxRy x y => wordXY 0x2#4 x y
  | .subRxRy x y => wordXY 0x3#4 x y
  | .sbbRxRy x y => wordXY 0x4#4 x y
  | .orRxRy x y => wordXY 0x5#4 x y
  | .andRxRy x y => wordXY 0x6#4 x y
  | .xorRxRy x y => wordXY 0x7#4 x y
  | .movRxRy x y => wordXY 0x8#4 x y
  | .movRxN x n => wordXY 0x9#4 x n
  | .movXyR0 x y => wordXY 0xA#4 x y
  | .movR0Xy x y => wordXY 0xB#4 x y
  | .movNnR0 nn => wordNN 0xC#4 nn
  | .movR0Nn nn => wordNN 0xD#4 nn
  | .movPcNn nn => wordNN 0xE#4 nn
  | .jrNn nn => wordNN 0xF#4 nn
  | .cpR0N n => wordSub 0x0#4 n
  | .addR0N n => wordSub 0x1#4 n
  | .incRy y => wordSub 0x2#4 y
  | .decRy y => wordSub 0x3#4 y
  | .dszRy y => wordSub 0x4#4 y
  | .orR0N n => wordSub 0x5#4 n
  | .andR0N n => wordSub 0x6#4 n
  | .xorR0N n => wordSub 0x7#4 n
  | .exrN n => wordSub 0x8#4 n
  | .bitRgM g m => wordGM 0x9#4 (bitRegBits g) m
  | .bsetRgM g m => wordGM 0xA#4 (bitRegBits g) m
  | .bclrRgM g m => wordGM 0xB#4 (bitRegBits g) m
  | .btgRgM g m => wordGM 0xC#4 (bitRegBits g) m
  | .rrcRy y => wordSub 0xD#4 y
  | .retR0N n => wordSub 0xE#4 n
  | .skipFM f m => wordGM 0xF#4 (condBits f) m

end Sys2Proof
end

