-- ==== Sys2Proof/Machine/Fetch.lean ====
section
/-!
DEFINITION. The fetch of spec/10_state.md R15, and the placing of a word where it fetches.
-/
namespace Sys2Proof.Machine

open Sys2Proof

/-- `PM[a]` (R6, R27). -/
def State.word (s : State) (a : ProgAddr) : InstrWord := s.pm.read a.toNat

/-- The instruction `ir <- PM[pc]` stands for (R15, R64). -/
def State.fetched (s : State) : Instr := decode (s.word s.pc)

/-- `pc <- (pc + 1) mod 4096`, before the instruction takes effect (R15, R16). -/
def State.afterFetch (s : State) : State := { s with pc := s.pc + 1 }

/-- The state with a word placed at `pc`: a part of the load of a program from outside (R243; log 5). -/
def State.placeWord (s : State) (w : InstrWord) : State := { s with pm := s.pm.write s.pc.toNat w }

end Sys2Proof.Machine
end

