-- ==== Sys2Proof/Machine/Step.lean ====
section
/-!
DEFINITION. One step of the machine, spec/10_state.md R15: fetch, increment, execute. The only kind of step there is
(60_exceptions.md R221).
-/
namespace Sys2Proof.Machine

/-- One step (R15). -/
def step (s : State) : Host.Outcome State Fault Refusal := exec s.fetched s.afterFetch

/-- The state with the instruction whose bits are `w` where `step` fetches its next instruction; every instruction is one
12-bit word (R60), whatever number of bits the table's row counts. -/
def State.withFetchWord (s : State) (_nbits w : Nat) : State := s.placeWord (BitVec.ofNat 12 w)

end Sys2Proof.Machine
end

