-- ==== Sys2Proof/Asm.lean ====
section
/-!
DEFINITION. An assembly statement as data, spec/30_encoding.md R70 to R73: operands as the programmer wrote them, numbers
of any size. Which statements are well formed: WellFormed.lean. What word they stand for: Machine/Assembler.lean.
-/
namespace Sys2Proof

/-- The mnemonics of R71, and the older name LPC, which takes MOV PC's literal alone (R76). -/
inductive Mnemonic where
  | add | adc | sub | sbb | or | and | xor | mov | jr | cp | inc | dec | dsz
  | exr | bit | bset | bclr | btg | rrc | ret | skip | lpc
  deriving DecidableEq, Repr

/-- The operand forms of R71. -/
inductive Operand where
  /-- `Rn`, or a register's other name (R72) -/
  | reg (n : Nat)
  /-- `RS`, or `S` in the number form (R72; log 27) -/
  | rs
  /-- a literal (R73) -/
  | num (v : Int)
  /-- `[NN]` -/
  | atNum (v : Int)
  /-- `[RX:RY]` -/
  | atPair (x y : Nat)
  /-- `PC`, a part of MOV PC's mnemonic (R72) -/
  | pc
  /-- a condition of SKIP -/
  | cond (f : Cond)
  deriving DecidableEq, Repr

/-- A statement without its label (R70). -/
structure Stmt where
  mnemonic : Mnemonic
  operands : List Operand
  deriving DecidableEq, Repr

end Sys2Proof
end

