-- ==== Sys2Proof/Machine/Assembler.lean ====
section
/-!
DEFINITION. The assembler's notation, spec/30_encoding.md R70 to R76: what instruction a statement stands for, how a line of text is
read as a statement (log 27), and the idioms the source gives for instructions that do not exist (R75).
-/
namespace Sys2Proof.Machine

open Sys2Proof

/-! From a statement to its instruction (R71 to R74). A literal outside its range is an error (R73). -/

/-- A register number that fits its field. -/
def asReg : Operand → Option Reg
  | .reg n => if n < 16 then some (BitVec.ofNat 4 n) else none
  | _ => none

/-- A literal that fits `w` bits unsigned. -/
def asUnsigned (w : Nat) : Operand → Option (BitVec w)
  | .num v => if 0 ≤ v ∧ v < 2 ^ w then some (BitVec.ofInt w v) else none
  | _ => none

/-- JR's literal, 8 bits signed. -/
def asOffset : Operand → Option (BitVec 8)
  | .num v => if -128 ≤ v ∧ v < 128 then some (BitVec.ofInt 8 v) else none
  | _ => none

/-- RG, where 3, like RS and S, stands for the I/O register (R72; the number form and S: log 27). -/
def asBitReg : Operand → Option BitReg
  | .reg n => if n < 4 then some (bitRegOf (BitVec.ofNat 2 n)) else none
  | .rs => some .rs
  | .num v => if 0 ≤ v ∧ v < 4 then some (bitRegOf (BitVec.ofInt 2 v)) else none
  | _ => none

/-- Two register operands. -/
def asTwoRegs (k : Reg → Reg → Instr) (a b : Operand) : Option Instr :=
  match asReg a, asReg b with
  | some x, some y => some (k x y)
  | _, _ => none

/-- R0 and a literal. -/
def asR0Literal (k : Nibble → Instr) (a b : Operand) : Option Instr :=
  if a = .reg 0 then (asUnsigned 4 b).map k else none

/-- RG and a bit number. -/
def asBit (k : BitReg → BitVec 2 → Instr) (a b : Operand) : Option Instr :=
  match asBitReg a, asUnsigned 2 b with
  | some g, some m => some (k g m)
  | _, _ => none

/-- The seven forms of MOV. -/
def asMov (a b : Operand) : Option Instr :=
  match a, b with
  | .atPair x y, b => if b = .reg 0 then asTwoRegs .movXyR0 (.reg x) (.reg y) else none
  | .atNum v, b => if b = .reg 0 then (asUnsigned 8 (.num v)).map .movNnR0 else none
  | a, .atPair x y => if a = .reg 0 then asTwoRegs .movR0Xy (.reg x) (.reg y) else none
  | a, .atNum v => if a = .reg 0 then (asUnsigned 8 (.num v)).map .movR0Nn else none
  | .pc, b => (asUnsigned 8 b).map .movPcNn
  | a, .reg n => asTwoRegs .movRxRy a (.reg n)
  | a, b => (asReg a).bind fun x => (asUnsigned 4 b).map (Instr.movRxN x)

/-- The instruction a statement stands for, if it is one (R71); an omitted SKIP count is 1 (R74). -/
def assembled (st : Stmt) : Option Instr :=
  match st.mnemonic, st.operands with
  | .add, [a, b] => (asTwoRegs .addRxRy a b).or (asR0Literal .addR0N a b)
  | .or, [a, b] => (asTwoRegs .orRxRy a b).or (asR0Literal .orR0N a b)
  | .and, [a, b] => (asTwoRegs .andRxRy a b).or (asR0Literal .andR0N a b)
  | .xor, [a, b] => (asTwoRegs .xorRxRy a b).or (asR0Literal .xorR0N a b)
  | .adc, [a, b] => asTwoRegs .adcRxRy a b
  | .sub, [a, b] => asTwoRegs .subRxRy a b
  | .sbb, [a, b] => asTwoRegs .sbbRxRy a b
  | .mov, [a, b] => asMov a b
  | .lpc, [a] => (asUnsigned 8 a).map .movPcNn
  | .jr, [a] => (asOffset a).map .jrNn
  | .cp, [a, b] => asR0Literal .cpR0N a b
  | .ret, [a, b] => asR0Literal .retR0N a b
  | .inc, [a] => (asReg a).map .incRy
  | .dec, [a] => (asReg a).map .decRy
  | .dsz, [a] => (asReg a).map .dszRy
  | .rrc, [a] => (asReg a).map .rrcRy
  | .exr, [a] => (asUnsigned 4 a).map .exrN
  | .bit, [a, b] => asBit .bitRgM a b
  | .bset, [a, b] => asBit .bsetRgM a b
  | .bclr, [a, b] => asBit .bclrRgM a b
  | .btg, [a, b] => asBit .btgRgM a b
  | .skip, [.cond f] => some (.skipFM f 1)
  | .skip, [.cond f, b] => (asUnsigned 2 b).map (Instr.skipFM f)
  | _, _ => none

/-! Reading a line (R70, R72, R73). Case is not significant: a line is read in upper case. -/

/-- A mnemonic's name; ADDC is the older name of ADC (R76). -/
def mnemonicNames : List (String × Mnemonic) :=
  [("ADD", .add), ("ADC", .adc), ("ADDC", .adc), ("SUB", .sub), ("SBB", .sbb), ("OR", .or), ("AND", .and),
   ("XOR", .xor), ("MOV", .mov), ("JR", .jr), ("CP", .cp)]
  ++ [("INC", .inc), ("DEC", .dec), ("DSZ", .dsz), ("EXR", .exr), ("BIT", .bit), ("BSET", .bset),
   ("BCLR", .bclr), ("BTG", .btg), ("RRC", .rrc), ("RET", .ret), ("SKIP", .skip), ("LPC", .lpc)]

/-- Operands that are one fixed word (R71, R72). DESIGN CHOICE (log 27): R72 names the letter S, beside the numbers 0 to 2, as the
number form of RG's fourth choice and shows no statement with it; S is read as RS is, in each of the four bit instructions. -/
def wordOperands : List (String × Operand) :=
  [("OUT", .reg 10), ("IN", .reg 11), ("JSR", .reg 12), ("PCL", .reg 13), ("PCM", .reg 14), ("PCH", .reg 15)]
  ++ [("RS", .rs), ("S", .rs), ("PC", .pc), ("C", .cond .c), ("NC", .cond .nc), ("Z", .cond .z), ("NZ", .cond .nz)]

/-- What a table gives for a word. -/
def lookUp {α : Type} (table : List (String × α)) (w : List Char) : Option α :=
  (table.find? fun e => decide (e.1.toList = w)).map Prod.snd

/-- A digit of a base up to 16, in upper case. -/
def digitOf (base : Nat) (ch : Char) : Option Nat :=
  let d := if '0' ≤ ch ∧ ch ≤ '9' then some (ch.toNat - 48)
    else if 'A' ≤ ch ∧ ch ≤ 'F' then some (ch.toNat - 55) else none
  d.bind fun n => if n < base then some n else none

/-- A run of digits continued from `n`. -/
def digitsFrom (base : Nat) : Nat → List Char → Option Nat
  | n, [] => some n
  | n, ch :: rest => (digitOf base ch).bind fun d => digitsFrom base (n * base + d) rest

/-- One or more digits. -/
def natOf (base : Nat) (w : List Char) : Option Nat := if w.isEmpty then none else digitsFrom base 0 w

/-- A literal: decimal, hexadecimal after 0x, a minus sign, a # without meaning (R73). DESIGN CHOICE (log 27): R73 shows a minus
sign only before decimal digits, so one before 0x or after # (-0x3, #-3) makes no literal; a plus sign before decimal digits, which
R73 does not show and the spec's tables write (JR +5), is read. -/
def numberOf : List Char → Option Int
  | '#' :: '0' :: 'X' :: w => (natOf 16 w).map Int.ofNat
  | '#' :: w => (natOf 10 w).map Int.ofNat
  | '0' :: 'X' :: w => (natOf 16 w).map Int.ofNat
  | '-' :: w => (natOf 10 w).map fun n => -Int.ofNat n
  | '+' :: w => (natOf 10 w).map Int.ofNat
  | w => (natOf 10 w).map Int.ofNat

/-- A register by number or by name (R72). -/
def regNumberOf : List Char → Option Nat
  | 'R' :: w => if w = ['S'] then none else natOf 10 w
  | w => match lookUp wordOperands w with
    | some (.reg n) => some n
    | _ => none

/-- The parts of a list between the occurrences of a character. -/
def splitAt (sep : Char) : List Char → List (List Char)
  | [] => [[]]
  | ch :: rest =>
    if ch = sep then [] :: splitAt sep rest
    else match splitAt sep rest with
      | [] => [[ch]]
      | w :: ws => (ch :: w) :: ws

/-- What stands between brackets: a register pair or a number. -/
def memOperandOf (w : List Char) : Option Operand :=
  match splitAt ':' w with
  | [a, b] => match regNumberOf a, regNumberOf b with
    | some x, some y => some (.atPair x y)
    | _, _ => none
  | [a] => (numberOf a).map .atNum
  | _ => none

/-- One operand. -/
def operandOf (w : List Char) : Option Operand :=
  match w with
  | '[' :: rest => if rest.getLast? = some ']' then memOperandOf rest.dropLast else none
  | w => ((lookUp wordOperands w).or ((regNumberOf w).map .reg)).or ((numberOf w).map .num)

/-- All operands of a list, or none. -/
def operandsOf : List (List Char) → Option (List Operand)
  | [] => some []
  | w :: ws => (operandOf w).bind fun a => (operandsOf ws).map (a :: ·)

/-- The words of a line that blanks separate. -/
def wordsOf (line : List Char) : List (List Char) := (splitAt ' ' line).filter fun w => !w.isEmpty

/-- The statement a mnemonic and the words after it make: the operands are the comma-separated parts (R70). -/
def statementOf (m : Mnemonic) (rest : List (List Char)) : Option Stmt :=
  (operandsOf (splitAt ',' rest.flatten)).map fun os => { mnemonic := m, operands := os }

/-- A statement in upper case: an optional label, the mnemonic, the operands (R70). A first word that is a mnemonic is
no label. -/
def readUpper (line : List Char) : Option Stmt :=
  match wordsOf line with
  | w :: rest => match lookUp mnemonicNames w with
    | some m => statementOf m rest
    | none => match rest with
      | w' :: rest' => (lookUp mnemonicNames w').bind fun m => statementOf m rest'
      | [] => none
  | [] => none

/-- The statement a line of text makes. -/
def readLine (line : String) : Option Stmt := readUpper (line.toList.map Char.toUpper)

/-- The word a line of text stands for. -/
def assembleLine (line : String) : Option InstrWord := ((readLine line).bind assembled).map encode

/-! The idioms of R75: ordinary instructions with particular operands. -/

/-- SL RX: shift left. -/
def idiomSL (x : Reg) : Instr := .addRxRy x x

/-- RLC RX: rotate left through carry. -/
def idiomRLC (x : Reg) : Instr := .adcRxRy x x

/-- SET C. -/
def idiomSetC : Instr := .orR0N 0

/-- CLEAR C. -/
def idiomClearC : Instr := .andR0N 15

/-- TOGGLE C. -/
def idiomToggleC : Instr := .xorR0N 0

/-- The word that does nothing (R67, R225): MOV R0,R0. -/
def idiomNop : Instr := .movRxRy 0 0

end Sys2Proof.Machine
end

