-- ==== Sys2Proof/Safety.lean ====
section
/-!
DEFINITION. What counts as a safe state and a safe run, in the terms the claims use: the invariant of the state, the launches of
spec/70_reset_and_hazards.md R243, and the end of a run (R246).
-/
namespace Sys2Proof.Machine

open Sys2Proof

/-- The parameters are ones the spec's stack has a meaning for: five levels of three cells fit in page 1 (R21, R22). -/
abbrev paramsFit (p : Params) : Prop := p.stackDepth ≤ 5 ∧ p.resetSp ≤ p.stackDepth

/-- The invariant of the state: both memories in their canonical form, with no address the spec does not give (R26, R27), and SP
among its legal values 0 to STACK_DEPTH, at most 5 (R21, R22). -/
abbrev State.Inv (s : State) : Prop :=
  s.dm.wf 256 ∧ s.pm.wf 4096 ∧ s.sp ≤ s.params.stackDepth ∧ paramsFit s.params

/-- A state a run may start from (R29, R240, R243): `pc`, `SP` and IOPOS as the parameters say, no Output event and no
Input() yet. Everything else, the program, the supply, the flags and every other cell, is arbitrary (R241). -/
abbrev State.isLaunch (s : State) : Prop :=
  s.Inv ∧ s.pc = s.params.resetPc ∧ s.sp = s.params.resetSp ∧ s.iopos = s.params.resetIopos
    ∧ s.outputs = [] ∧ s.inputsRead = 0

/-- The run has ended (R246): the word at `pc` is 0xFFF, `JR -1`. -/
def State.ended (s : State) : Bool := decide (s.word s.pc = 0xFFF)

/-- The instruction completes: it answers a next state. -/
def completes (i : Instr) (s : State) : Prop := ∃ t, exec i s = .next t

/-- Cell `a` is one of the three cells of stack level `level` (R22). -/
def inStackLevel (level : Nat) (a : DataAddr) : Prop :=
  a = stackCell level 0 ∨ a = stackCell level 1 ∨ a = stackCell level 2

/-- The write of an instruction that `PcWriteEffect` follows: its cell, and the instruction's class (R7, R143, R144). The writes of
MOV PC,NN, of EXR and of a call's push have no such effect (R143). -/
def State.finalWrite (s : State) : Instr → Option (DataAddr × PcClass)
  | .addRxRy x _ => some (regCell x, .other)
  | .adcRxRy x _ => some (regCell x, .other)
  | .subRxRy x _ => some (regCell x, .other)
  | .sbbRxRy x _ => some (regCell x, .other)
  | .orRxRy x _ => some (regCell x, .other)
  | .andRxRy x _ => some (regCell x, .other)
  | .xorRxRy x _ => some (regCell x, .other)
  | .movRxRy x _ => some (regCell x, .named)
  | .movRxN x _ => some (regCell x, .named)
  | .movXyR0 x y => some (s.pairOf x y, .other)
  | .movNnR0 nn => some (nn, .other)
  | .incRy y => some (regCell y, .named)
  | .decRy y => some (regCell y, .named)
  | .dszRy y => some (regCell y, .other)
  | .rrcRy y => some (regCell y, .other)
  | .movR0Xy _ _ => none
  | .movR0Nn _ => none
  | .movPcNn _ => none
  | .jrNn _ => none
  | .cpR0N _ => none
  | .addR0N _ => none
  | .orR0N _ => none
  | .andR0N _ => none
  | .xorR0N _ => none
  | .exrN _ => none
  | .bitRgM _ _ => none
  | .bsetRgM _ _ => none
  | .bclrRgM _ _ => none
  | .btgRgM _ _ => none
  | .retR0N _ => none
  | .skipFM _ _ => none

/-- The address of a memory MOV, the only instructions that can form one in page 15, and the kind of its access (R123 to R126,
R223). -/
def State.memoryAccess (s : State) : Instr → Option (DataAddr × Access)
  | .movXyR0 x y => some (s.pairOf x y, .write)
  | .movNnR0 nn => some (nn, .write)
  | .movR0Xy x y => some (s.pairOf x y, .read)
  | .movR0Nn nn => some (nn, .read)
  | .addRxRy _ _ => none
  | .adcRxRy _ _ => none
  | .subRxRy _ _ => none
  | .sbbRxRy _ _ => none
  | .orRxRy _ _ => none
  | .andRxRy _ _ => none
  | .xorRxRy _ _ => none
  | .movRxRy _ _ => none
  | .movRxN _ _ => none
  | .movPcNn _ => none
  | .jrNn _ => none
  | .cpR0N _ => none
  | .addR0N _ => none
  | .incRy _ => none
  | .decRy _ => none
  | .dszRy _ => none
  | .orR0N _ => none
  | .andR0N _ => none
  | .xorR0N _ => none
  | .exrN _ => none
  | .bitRgM _ _ => none
  | .bsetRgM _ _ => none
  | .bclrRgM _ _ => none
  | .btgRgM _ _ => none
  | .rrcRy _ => none
  | .retR0N _ => none
  | .skipFM _ _ => none

/-- A cell of page 15 the spec does not describe (R46, R47). -/
abbrev isUndescribedSfr (a : DataAddr) : Prop := 0xF0 ≤ a.toNat ∧ a ≠ 0xF3 ∧ a ≠ 0xFA ∧ a ≠ 0xFB

/-- The condition of each model fault, row by row the table of R222. -/
def State.faultCondition (s : State) (i : Instr) : Fault → Prop
  | .stackOverflow p =>
    p = s.pc - 1 ∧ s.params.stackDepth ≤ s.sp
      ∧ (s.finalWrite i = some (0x0C, .named) ∨ s.finalWrite i = some (0x0C, .other) ∧ s.params.otherPcWrites = .trigger)
  | .stackUnderflow p => p = s.pc - 1 ∧ s.sp = 0 ∧ ∃ n, i = .retR0N n
  | .unmodelledSFR p a k =>
    p = s.pc - 1 ∧ isUndescribedSfr a ∧ s.params.sfrModel = .refuse ∧ s.memoryAccess i = some (a, k)
  | .unspecifiedPcWrite p a =>
    p = s.pc - 1 ∧
      (s.params.otherPcWrites = .refuse ∧ (a = 0x0C ∨ a = 0x0D) ∧ s.finalWrite i = some (a, .other)
        ∨ s.params.otherPcWrites ≠ .plain ∧ a = 0x0C ∧ ∃ n, i = .exrN n ∧ (n = 0 ∨ 13 ≤ n.toNat))

/-- The flags an instruction writes, in the order C, Z, V: the table of R18, true where it has an entry other than "-". -/
def flagsWritten : Instr → Bool × Bool × Bool
  | .addRxRy _ _ => (true, true, true)
  | .adcRxRy _ _ => (true, true, true)
  | .subRxRy _ _ => (true, true, true)
  | .sbbRxRy _ _ => (true, true, true)
  | .orRxRy _ _ => (false, true, false)
  | .andRxRy _ _ => (false, true, false)
  | .xorRxRy _ _ => (false, true, false)
  | .cpR0N _ => (true, true, false)
  | .addR0N _ => (true, true, false)
  | .incRy _ => (true, true, false)
  | .decRy _ => (true, true, false)
  | .orR0N _ => (true, true, false)
  | .andR0N _ => (true, true, false)
  | .xorR0N _ => (true, true, false)
  | .bitRgM _ _ => (false, true, false)
  | .rrcRy _ => (true, true, false)
  | .movRxRy _ _ => (false, false, false)
  | .movRxN _ _ => (false, false, false)
  | .movXyR0 _ _ => (false, false, false)
  | .movR0Xy _ _ => (false, false, false)
  | .movNnR0 _ => (false, false, false)
  | .movR0Nn _ => (false, false, false)
  | .movPcNn _ => (false, false, false)
  | .jrNn _ => (false, false, false)
  | .dszRy _ => (false, false, false)
  | .exrN _ => (false, false, false)
  | .bsetRgM _ _ => (false, false, false)
  | .bclrRgM _ _ => (false, false, false)
  | .btgRgM _ _ => (false, false, false)
  | .retR0N _ => (false, false, false)
  | .skipFM _ _ => (false, false, false)

/-- The instruction may leave `pc` other than incremented: the first six rows of the table of R17. -/
def State.mayMovePc (s : State) : Instr → Prop
  | .jrNn _ => True
  | .skipFM f _ => s.condHolds f = true
  | .dszRy y => s.reg y = 1 ∨ s.triggers (regCell y) .other = true
  | .retR0N _ => True
  | i => ∃ a k, s.finalWrite i = some (a, k) ∧ s.triggers a k = true

end Sys2Proof.Machine
end

