-- ==== Sys2Proof/WellFormed.lean ====
section
/-!
DEFINITION. Which assembly statements are well formed: the operand forms and ranges of spec/30_encoding.md R71 to R73, one
check per form. An instruction (`Instr`) needs no check of its own: its fields are as wide as the word's, and every
value of every field is legal (R64, R67), so every `Instr` is well formed by its types.
-/
namespace Sys2Proof

/-- A register number (R71). -/
def regInRange (n : Nat) : Bool := decide (n ≤ 15)

/-- A literal N of 4 bits (R71). -/
def literalInRange (v : Int) : Bool := decide (0 ≤ v ∧ v ≤ 15)

/-- An unsigned literal NN (R71). -/
def byteInRange (v : Int) : Bool := decide (0 ≤ v ∧ v ≤ 255)

/-- The signed literal of JR (R71). -/
def offsetInRange (v : Int) : Bool := decide (-128 ≤ v ∧ v ≤ 127)

/-- A literal M of 2 bits (R71). -/
def smallInRange (v : Int) : Bool := decide (0 ≤ v ∧ v ≤ 3)

/-- A register operand. -/
def Operand.isReg : Operand → Bool
  | .reg n => regInRange n
  | _ => false

/-- A literal N. -/
def Operand.isLiteral : Operand → Bool
  | .num v => literalInRange v
  | _ => false

/-- A literal NN. -/
def Operand.isByte : Operand → Bool
  | .num v => byteInRange v
  | _ => false

/-- JR's offset. -/
def Operand.isOffset : Operand → Bool
  | .num v => offsetInRange v
  | _ => false

/-- A literal M. -/
def Operand.isSmall : Operand → Bool
  | .num v => smallInRange v
  | _ => false

/-- RG: R0, R1, R2, and RS or R3 for the I/O register; the number form, 0 to 3 or S, too (R71, R72; log 27). -/
def Operand.isBitReg : Operand → Bool
  | .reg n => decide (n ≤ 3)
  | .rs => true
  | .num v => smallInRange v
  | _ => false

/-- The first operand is R0 and nothing else (R71). -/
def Operand.isR0 : Operand → Bool
  | .reg n => decide (n = 0)
  | _ => false

/-- F. -/
def Operand.isCond : Operand → Bool
  | .cond _ => true
  | _ => false

/-- `[RX:RY]` or `[NN]` (R71). -/
def Operand.isMem : Operand → Bool
  | .atPair x y => regInRange x && regInRange y
  | .atNum v => byteInRange v
  | _ => false

/-- `PC`. -/
def Operand.isPc : Operand → Bool
  | .pc => true
  | _ => false

/-- The operands a mnemonic takes (R71); SKIP's count may be left out (R74). -/
def operandsFit : Mnemonic → List Operand → Bool
  | .add, [a, b] => a.isReg && b.isReg || a.isR0 && b.isLiteral
  | .or, [a, b] => a.isReg && b.isReg || a.isR0 && b.isLiteral
  | .and, [a, b] => a.isReg && b.isReg || a.isR0 && b.isLiteral
  | .xor, [a, b] => a.isReg && b.isReg || a.isR0 && b.isLiteral
  | .adc, [a, b] => a.isReg && b.isReg
  | .sub, [a, b] => a.isReg && b.isReg
  | .sbb, [a, b] => a.isReg && b.isReg
  | .mov, [a, b] =>
    a.isReg && b.isReg || a.isReg && b.isLiteral || a.isMem && b.isR0 || a.isR0 && b.isMem || a.isPc && b.isByte
  | .lpc, [a] => a.isByte
  | .jr, [a] => a.isOffset
  | .cp, [a, b] => a.isR0 && b.isLiteral
  | .ret, [a, b] => a.isR0 && b.isLiteral
  | .inc, [a] => a.isReg
  | .dec, [a] => a.isReg
  | .dsz, [a] => a.isReg
  | .rrc, [a] => a.isReg
  | .exr, [a] => a.isLiteral
  | .bit, [a, b] => a.isBitReg && b.isSmall
  | .bset, [a, b] => a.isBitReg && b.isSmall
  | .bclr, [a, b] => a.isBitReg && b.isSmall
  | .btg, [a, b] => a.isBitReg && b.isSmall
  | .skip, [a] => a.isCond
  | .skip, [a, b] => a.isCond && b.isSmall
  | _, _ => false

/-- The statement is well formed (R71 to R74). -/
def Stmt.wf (st : Stmt) : Bool := operandsFit st.mnemonic st.operands

end Sys2Proof
end

