-- ==== Sys2Proof/Certificates/Slice0/Obligations.lean ====
section
/-!
DEFINITION. The statements for the provers. Each docstring says which rule of spec/ it formalises, and where a statement rests on a
decision of the spec (a D<n> of spec/92_eei_decisions.md) or on a choice of the model it names the log entry.
`pc` in a state given to `exec` is already incremented (R15).
-/
open Sys2Proof Sys2Proof.Machine

/-! Encoding. -/

/-- R64 to R67: decoding the word of an instruction gives the instruction back, whatever its operands. -/
def Obligations.DecodeOfEncode : Prop := ∀ i : Instr, decode (encode i) = i

/-- R67: each of the 4096 words is the word of exactly one instruction, the one it decodes to. -/
def Obligations.EveryWordIsOneInstruction : Prop :=
  ∀ w : InstrWord, encode (decode w) = w ∧ ∀ i : Instr, encode i = w → i = decode w

/-- Words of the source's worked examples, one at least of each family, written out from 95_test_vectors.md section 1. -/
def Obligations.ExampleWordsDecode : Prop :=
  decode 0b000100100000 = .addRxRy 2 0 ∧ decode 0b010001010011 = .sbbRxRy 5 3 ∧ decode 0b100001100101 = .movRxRy 6 5
    ∧ decode 0b101010010100 = .movXyR0 9 4 ∧ decode 0b110111100010 = .movR0Nn 0xE2 ∧ decode 0b111000110001 = .movPcNn 0x31
    ∧ decode 0b111111111101 = .jrNn 0xFD ∧ decode 0b000000000101 = .cpR0N 5 ∧ decode 0b000000111000 = .decRy 8
    ∧ decode 0b000001000011 = .dszRy 3 ∧ decode 0b000010001010 = .exrN 10 ∧ decode 0b000010011100 = .bitRgM .rs 0
    ∧ decode 0b000010100110 = .bsetRgM .r1 2 ∧ decode 0b000011010100 = .rrcRy 4 ∧ decode 0b000011100100 = .retR0N 4
    ∧ decode 0b000011110110 = .skipFM .nc 2

/-- R15: one step fetches the word at `pc`, increments `pc` modulo 4096 and executes the instruction the word decodes to. -/
def Obligations.StepRunsTheDecodedInstruction : Prop :=
  ∀ (s : State) (i : Instr), decode (s.pm.read s.pc.toNat) = i → step s = exec i { s with pc := s.pc + 1 }

/-! Two-register arithmetic and logic. The write of RX is of class other, and what that does to JSR and PCL is the spec's D3
(log 11): where it may not be made (R143) the instruction stops, `FaultsExactlyWhereTabulated`. Each operand cell is read once
(R100), which is D16 (log 8). V is signed overflow as R108 defines it, which the spec marks derived. -/

/-- R101: ADD RX,RY. The premise and the forms on JSR and PCL it keeps are D3 (log 11), the single read D16 (log 8), V's definition
R108, derived by the spec. -/
def Obligations.AddRegisters : Prop :=
  ∀ (s : State) (x y : Reg),
    encode (.addRxRy x y) = 0b0001#4 ++ x ++ y ∧
    (s.pcWriteFault (regCell x) .other = none →
      let a := s.reg x
      let b := s.reg y
      exec (.addRxRy x y) s = .next
        (State.putCell
          { s.afterReads [regCell x, regCell y] with
            c := decide (a.toNat + b.toNat > 15)
            z := decide ((a.toNat + b.toNat) % 16 = 0)
            v := decide (a.toInt + b.toInt > 7 ∨ a.toInt + b.toInt < -8) }
          (regCell x) (a + b) .other))

/-- R102: ADC RX,RY. The premise and the forms on JSR and PCL it keeps are D3 (log 11), the single read D16 (log 8), V's definition
R108, derived by the spec. -/
def Obligations.AddRegistersWithCarry : Prop :=
  ∀ (s : State) (x y : Reg),
    encode (.adcRxRy x y) = 0b0010#4 ++ x ++ y ∧
    (s.pcWriteFault (regCell x) .other = none →
      let a := s.reg x
      let b := s.reg y
      let cin := if s.c then 1 else 0
      exec (.adcRxRy x y) s = .next
        (State.putCell
          { s.afterReads [regCell x, regCell y] with
            c := decide (a.toNat + b.toNat + cin > 15)
            z := decide ((a.toNat + b.toNat + cin) % 16 = 0)
            v := decide (a.toInt + b.toInt + cin > 7 ∨ a.toInt + b.toInt + cin < -8) }
          (regCell x) (BitVec.ofNat 4 (a.toNat + b.toNat + cin)) .other))

/-- R103: SUB RX,RY; C is 1 when there is no borrow. The premise and the forms on JSR and PCL it keeps are D3 (log 11), the single
read D16 (log 8), V's definition R108, derived by the spec. -/
def Obligations.SubtractRegisters : Prop :=
  ∀ (s : State) (x y : Reg),
    encode (.subRxRy x y) = 0b0011#4 ++ x ++ y ∧
    (s.pcWriteFault (regCell x) .other = none →
      let a := s.reg x
      let b := s.reg y
      exec (.subRxRy x y) s = .next
        (State.putCell
          { s.afterReads [regCell x, regCell y] with
            c := decide (b.toNat ≤ a.toNat)
            z := decide (a = b)
            v := decide (a.toInt - b.toInt > 7 ∨ a.toInt - b.toInt < -8) }
          (regCell x) (a - b) .other))

/-- R104: SBB RX,RY; what is subtracted is the borrow, NOT C. The premise and the forms on JSR and PCL it keeps are D3 (log 11), the
single read D16 (log 8), V's definition R108, derived by the spec. -/
def Obligations.SubtractRegistersWithBorrow : Prop :=
  ∀ (s : State) (x y : Reg),
    encode (.sbbRxRy x y) = 0b0100#4 ++ x ++ y ∧
    (s.pcWriteFault (regCell x) .other = none →
      let a := s.reg x
      let b := s.reg y
      let bin := if s.c then 0 else 1
      exec (.sbbRxRy x y) s = .next
        (State.putCell
          { s.afterReads [regCell x, regCell y] with
            c := decide (b.toNat + bin ≤ a.toNat)
            z := decide ((a.toNat + 32 - b.toNat - bin) % 16 = 0)
            v := decide (a.toInt - b.toInt - bin > 7 ∨ a.toInt - b.toInt - bin < -8) }
          (regCell x) (BitVec.ofNat 4 (a.toNat + 32 - b.toNat - bin)) .other))

/-- R105, R106, R107: OR, AND, XOR RX,RY; Z from the result, C kept. That V is kept too is D15 (log 19), the premise and
the forms on JSR and PCL it keeps D3 (log 11), the single read D16 (log 8). -/
def Obligations.LogicOnRegisters : Prop :=
  ∀ (s : State) (x y : Reg),
    encode (.orRxRy x y) = 0b0101#4 ++ x ++ y ∧ encode (.andRxRy x y) = 0b0110#4 ++ x ++ y
      ∧ encode (.xorRxRy x y) = 0b0111#4 ++ x ++ y ∧
    (s.pcWriteFault (regCell x) .other = none →
      let a := s.reg x
      let b := s.reg y
      let after := fun r : Nibble => Host.Outcome.next (ρ := Refusal) (φ := Fault)
        (State.putCell { s.afterReads [regCell x, regCell y] with z := decide (r.toNat = 0) } (regCell x) r .other)
      exec (.orRxRy x y) s = after (a ||| b) ∧ exec (.andRxRy x y) s = after (a &&& b)
        ∧ exec (.xorRxRy x y) s = after (a ^^^ b))

/-! The MOV family, INC and DEC. -/

/-- R121, R122: MOV RX,RY and MOV RX,N copy, change no flag, and a write of PCL or JSR is followed by the jump or the call; a call
needs room on the stack. What the jump and the call do is D1 and D2 (log 9, 10), the stack's limit D4 (log 12). -/
def Obligations.MovToRegister : Prop :=
  ∀ (s : State) (x y : Reg) (n : Nibble),
    encode (.movRxRy x y) = 0b1000#4 ++ x ++ y ∧ encode (.movRxN x n) = 0b1001#4 ++ x ++ n ∧
    ((x = 12 → s.sp < s.params.stackDepth) →
      let after := fun (s' : State) (v : Nibble) => Host.Outcome.next (ρ := Refusal) (φ := Fault)
        (let t := s'.writeCell (regCell x) v
         if x = 13 then t.jump else if x = 12 then t.call else t)
      exec (.movRxRy x y) s = after (s.afterReads [regCell y]) (s.reg y) ∧ exec (.movRxN x n) s = after s n)

/-- R163, R164: INC RY and DEC RY with their flags, and a write of PCL or JSR followed by the jump or the call. That V is kept is
D15 (log 19), what the jump and the call do D1 and D2 (log 9, 10), the stack's limit D4 (log 12). -/
def Obligations.IncrementAndDecrement : Prop :=
  ∀ (s : State) (y : Reg),
    encode (.incRy y) = 0b0000#4 ++ 0b0010#4 ++ y ∧ encode (.decRy y) = 0b0000#4 ++ 0b0011#4 ++ y ∧
    ((y = 12 → s.sp < s.params.stackDepth) →
      let a := s.reg y
      let after := fun (c z : Bool) (v : Nibble) => Host.Outcome.next (ρ := Refusal) (φ := Fault)
        (let t := State.writeCell { s.afterReads [regCell y] with c := c, z := z } (regCell y) v
         if y = 13 then t.jump else if y = 12 then t.call else t)
      exec (.incRy y) s = after (decide (a = 15)) (decide (a = 15)) (a + 1)
        ∧ exec (.decRy y) s = after (decide (a ≠ 0)) (decide (a = 1)) (a - 1))

/-- R123, R125: MOV [XY],R0 and MOV [NN],R0 store R0 at `x[X] : x[Y]`, RX the high nibble, or at NN, and change no flag.
Which stores are stopped is D3 and D8 (log 11, 16), the single read of the address registers D16 (log 8). -/
def Obligations.StoreR0 : Prop :=
  ∀ (s : State) (x y : Reg) (nn : DataAddr),
    encode (.movXyR0 x y) = 0b1010#4 ++ x ++ y ∧ encode (.movNnR0 nn) = 0b1100#4 ++ nn ∧
    (∀ a, a.toNat = 16 * (s.reg x).toNat + (s.reg y).toNat →
      s.sfrFault a .write = none → s.pcWriteFault a .other = none →
      exec (.movXyR0 x y) s = .next ((s.afterReads [regCell x, regCell y]).putCell a (s.cell 0x00) .other)) ∧
    (s.sfrFault nn .write = none → s.pcWriteFault nn .other = none →
      exec (.movNnR0 nn) s = .next (s.putCell nn (s.cell 0x00) .other))

/-- R124, R126: MOV R0,[XY] and MOV R0,[NN] load R0 and change no flag; the address is formed before R0 is overwritten.
Which loads are stopped is D8 (log 16). That one Input() is made, also where the loaded cell is the active IN register an address
nibble came from, is the model's reading of R120 and D16 (log 8, DEDUCED). -/
def Obligations.LoadR0 : Prop :=
  ∀ (s : State) (x y : Reg) (nn : DataAddr),
    encode (.movR0Xy x y) = 0b1011#4 ++ x ++ y ∧ encode (.movR0Nn nn) = 0b1101#4 ++ nn ∧
    (∀ a, a.toNat = 16 * (s.reg x).toNat + (s.reg y).toNat → s.sfrFault a .read = none →
      exec (.movR0Xy x y) s = .next ((s.afterReads [regCell x, regCell y, a]).setCell 0x00 (s.readCell a))) ∧
    (s.sfrFault nn .read = none →
      exec (.movR0Nn nn) s = .next ((s.afterReads [nn]).setCell 0x00 (s.readCell nn)))

/-- R127: MOV PC,NN loads PCM and PCH and nothing else; `pc` is not changed. -/
def Obligations.MovPcLoadsPcmAndPch : Prop :=
  ∀ (s : State) (hi lo : Nibble),
    encode (.movPcNn (hi ++ lo)) = 0b1110#4 ++ hi ++ lo ∧
    exec (.movPcNn (hi ++ lo)) s = .next ((s.setCell 0x0E lo).setCell 0x0F hi)

/-! Program control. -/

/-- R140: JR NN adds the signed literal to `pc` modulo 4096 and changes nothing else. -/
def Obligations.JumpRelative : Prop :=
  ∀ (s : State) (nn : BitVec 8),
    encode (.jrNn nn) = 0b1111#4 ++ nn ∧
    ∃ t : ProgAddr, exec (.jrNn nn) s = .next { s with pc := t } ∧ (t.toNat : Int) = ((s.pc.toNat : Int) + nn.toInt) % 4096

/-- R202: RET R0,N loads R0, decrements SP, and pops `pc` from the level the decremented SP names. That
SP = 0 stops it is D4 (log 12). -/
def Obligations.ReturnFromSubroutine : Prop :=
  ∀ (s : State) (n : Nibble),
    encode (.retR0N n) = 0b0000#4 ++ 0b1110#4 ++ n ∧
    (s.sp = 0 → exec (.retR0N n) s = .fault (.stackUnderflow (s.pc - 1))) ∧
    (∀ level, s.sp = level + 1 → level < 5 →
      exec (.retR0N n) s = .next
        { s.setCell 0x00 n with
          sp := level
          pc := s.cell (BitVec.ofNat 8 (0x10 + 3 * level + 2)) ++ s.cell (BitVec.ofNat 8 (0x10 + 3 * level + 1))
            ++ s.cell (BitVec.ofNat 8 (0x10 + 3 * level)) })

/-- R203, R68: SKIP F,M passes over M words, 4 for M = 0, when its condition holds, and changes nothing but `pc`. The codes of F
other than 01 are the spec's decision D6 (log 14). -/
def Obligations.SkipOnCondition : Prop :=
  ∀ (s : State) (m : BitVec 2),
    encode (.skipFM .c m) = 0b0000#4 ++ 0b1111#4 ++ 0b00#2 ++ m ∧ encode (.skipFM .nc m) = 0b0000#4 ++ 0b1111#4 ++ 0b01#2 ++ m
      ∧ encode (.skipFM .z m) = 0b0000#4 ++ 0b1111#4 ++ 0b10#2 ++ m ∧ encode (.skipFM .nz m) = 0b0000#4 ++ 0b1111#4 ++ 0b11#2 ++ m ∧
    (let taken : State := { s with pc := s.pc + (if m = 0 then 4 else m.setWidth 12) }
     exec (.skipFM .c m) s = .next (if s.c = true then taken else s)
      ∧ exec (.skipFM .nc m) s = .next (if s.c = false then taken else s)
      ∧ exec (.skipFM .z m) s = .next (if s.z = true then taken else s)
      ∧ exec (.skipFM .nz m) s = .next (if s.z = false then taken else s))

/-- R165: DSZ RY decrements, changes no flag, and skips one word when the result is 0 and the write started no jump or call. What
its write of JSR or PCL does is D3, that a transfer replaces the skip D16 (log 11, 22). -/
def Obligations.DecrementAndSkipIfZero : Prop :=
  ∀ (s : State) (y : Reg),
    encode (.dszRy y) = 0b0000#4 ++ 0b0100#4 ++ y ∧
    (s.pcWriteFault (regCell y) .other = none →
      let t := (s.afterReads [regCell y]).putCell (regCell y) (s.reg y - 1) .other
      exec (.dszRy y) s = .next
        (if s.reg y = 1 ∧ ¬ ((y = 12 ∨ y = 13) ∧ s.params.otherPcWrites = .trigger) then { t with pc := t.pc + 1 } else t))

/-! R0 with a literal. -/

/-- R161: CP R0,N writes C and Z alone. -/
def Obligations.CompareR0 : Prop :=
  ∀ (s : State) (n : Nibble),
    encode (.cpR0N n) = 0b0000#4 ++ 0b0000#4 ++ n ∧
    exec (.cpR0N n) s = .next { s with c := decide (n.toNat ≤ (s.cell 0x00).toNat), z := decide (s.cell 0x00 = n) }

/-- R162: ADD R0,N. That V is not changed is D15 (log 19). -/
def Obligations.AddLiteralToR0 : Prop :=
  ∀ (s : State) (n : Nibble),
    encode (.addR0N n) = 0b0000#4 ++ 0b0001#4 ++ n ∧
    (let a := s.cell 0x00
     exec (.addR0N n) s = .next
      { s.setCell 0x00 (a + n) with c := decide (a.toNat + n.toNat > 15), z := decide ((a.toNat + n.toNat) % 16 = 0) })

/-- R166, R167, R168: OR, AND, XOR R0,N; C is set, cleared, complemented, Z is from the result. That V is
kept is D15 (log 19). -/
def Obligations.LogicOnR0 : Prop :=
  ∀ (s : State) (n : Nibble),
    encode (.orR0N n) = 0b0000#4 ++ 0b0101#4 ++ n ∧ encode (.andR0N n) = 0b0000#4 ++ 0b0110#4 ++ n
      ∧ encode (.xorR0N n) = 0b0000#4 ++ 0b0111#4 ++ n ∧
    (let a := s.cell 0x00
     let after := fun (r : Nibble) (c : Bool) => Host.Outcome.next (ρ := Refusal) (φ := Fault)
      { s.setCell 0x00 r with c := c, z := decide (r.toNat = 0) }
     exec (.orR0N n) s = after (a ||| n) true ∧ exec (.andR0N n) s = after (a &&& n) false
      ∧ exec (.xorR0N n) s = after (a ^^^ n) (!s.c))

/-! EXR, the bit instructions, RRC. -/

/-- R181: EXR N exchanges cells 0 to n-1 with cells 0xE0 to 0xE0+n-1, where n is N or, for N = 0, 16; no flag, `pc` or SP changes.
With the active IN among them its old value is the environment's, with the active OUT among them one event is made: D7
(log 6, 15). The forms with n ≥ 13 complete only under OTHER_PC_WRITES = plain, which is D3 (log 11, 21). -/
def Obligations.ExchangeRegisters : Prop :=
  ∀ (s : State) (n : Nibble) (count : Nat),
    count = (if n = 0 then 16 else n.toNat) → (count < 13 ∨ s.params.otherPcWrites = .plain) →
    encode (.exrN n) = 0b0000#4 ++ 0b1000#4 ++ n ∧
    ∃ t, exec (.exrN n) s = .next t
      ∧ (∀ k, k < count → t.cell (BitVec.ofNat 8 k) = s.cell (BitVec.ofNat 8 (0xE0 + k))
          ∧ t.cell (BitVec.ofNat 8 (0xE0 + k)) = s.readCell (BitVec.ofNat 8 k))
      ∧ (∀ a : DataAddr, (∀ k, k < count → a ≠ BitVec.ofNat 8 k ∧ a ≠ BitVec.ofNat 8 (0xE0 + k)) → t.cell a = s.cell a)
      ∧ t.pc = s.pc ∧ t.sp = s.sp ∧ t.c = s.c ∧ t.z = s.z ∧ t.v = s.v ∧ t.pm = s.pm ∧ t.params = s.params
      ∧ t.outputs = (if 11 ≤ count ∧ s.iopos = false ∧ s.params.ioModel = .external then s.outputs ++ [s.cell 0xEA] else s.outputs)
      ∧ (t.inputs, t.inputsRead) = (if 12 ≤ count ∧ s.readsInput 0x0B then (s.inputs.tail, s.inputsRead + 1)
          else (s.inputs, s.inputsRead))

/-- R183: BIT RG,M sets Z to the complement of bit M of R0, R1, R2 or, for RS, of the active IN register, and writes nothing else.
That a read of RS is the environment's value is D7 (log 15), that it takes one nibble of the supply the model's form of it (log 6). -/
def Obligations.TestBitOfRegister : Prop :=
  ∀ (s : State) (m : BitVec 2),
    encode (.bitRgM .r0 m) = 0b0000#4 ++ 0b1001#4 ++ 0b00#2 ++ m ∧ encode (.bitRgM .r1 m) = 0b0000#4 ++ 0b1001#4 ++ 0b01#2 ++ m
      ∧ encode (.bitRgM .r2 m) = 0b0000#4 ++ 0b1001#4 ++ 0b10#2 ++ m ∧ encode (.bitRgM .rs m) = 0b0000#4 ++ 0b1001#4 ++ 0b11#2 ++ m ∧
    (exec (.bitRgM .r0 m) s = .next { s with z := !(s.cell 0x00).getLsbD m.toNat }
      ∧ exec (.bitRgM .r1 m) s = .next { s with z := !(s.cell 0x01).getLsbD m.toNat }
      ∧ exec (.bitRgM .r2 m) s = .next { s with z := !(s.cell 0x02).getLsbD m.toNat }
      ∧ exec (.bitRgM .rs m) s = .next
          (let a : DataAddr := if (s.cell 0xF3).getLsbD 1 then 0xFB else 0x0B
           { s.afterReads [a] with z := !(s.readCell a).getLsbD m.toNat }))

/-- R184, R185, R186: BSET, BCLR, BTG RG,M write the cell with bit M set, cleared, complemented and the other bits kept; no flag.
RS is the active OUT register; that the value changed is then the one last written to it is D23 (log 23), that its write is an event
D7 (log 15). -/
def Obligations.ChangeBitOfRegister : Prop :=
  ∀ (s : State) (g : BitReg) (m : BitVec 2) (a : DataAddr) (set clear toggle : Nibble),
    a = (match g with
      | .r0 => 0x00
      | .r1 => 0x01
      | .r2 => 0x02
      | .rs => if (s.cell 0xF3).getLsbD 1 then 0xFA else 0x0A) →
    (∀ j, j < 4 → set.getLsbD j = (decide (j = m.toNat) || (s.cell a).getLsbD j)) →
    (∀ j, j < 4 → clear.getLsbD j = (!decide (j = m.toNat) && (s.cell a).getLsbD j)) →
    (∀ j, j < 4 → toggle.getLsbD j = (decide (j = m.toNat) ^^ (s.cell a).getLsbD j)) →
    let g2 : BitVec 2 := match g with
      | .r0 => 0b00
      | .r1 => 0b01
      | .r2 => 0b10
      | .rs => 0b11
    encode (.bsetRgM g m) = 0b0000#4 ++ 0b1010#4 ++ g2 ++ m ∧ encode (.bclrRgM g m) = 0b0000#4 ++ 0b1011#4 ++ g2 ++ m
      ∧ encode (.btgRgM g m) = 0b0000#4 ++ 0b1100#4 ++ g2 ++ m
      ∧ exec (.bsetRgM g m) s = .next (s.writeCell a set) ∧ exec (.bclrRgM g m) s = .next (s.writeCell a clear)
      ∧ exec (.btgRgM g m) s = .next (s.writeCell a toggle)

/-- R201: RRC RY: the old C becomes bit 3, the bits move down, the old bit 0 becomes C, Z is from the result. That V is kept
is D15 (log 19), what its write of JSR or PCL does D3 (log 11). -/
def Obligations.RotateRightThroughCarry : Prop :=
  ∀ (s : State) (y : Reg) (r : Nibble),
    encode (.rrcRy y) = 0b0000#4 ++ 0b1101#4 ++ y ∧
    (s.pcWriteFault (regCell y) .other = none →
      r.getLsbD 3 = s.c → r.getLsbD 2 = (s.reg y).getLsbD 3 → r.getLsbD 1 = (s.reg y).getLsbD 2 →
      r.getLsbD 0 = (s.reg y).getLsbD 1 →
      exec (.rrcRy y) s = .next
        (State.putCell { s.afterReads [regCell y] with c := (s.reg y).getLsbD 0, z := decide (r = 0) } (regCell y) r .other))

/-! Writes to PCL and JSR, and I/O: decisions of the spec. -/

/-- D1 (R141; log 9): a named write of PCL loads `pc` with PCH:PCM:PCL and changes nothing else. -/
def Obligations.WriteOfPclJumps : Prop :=
  ∀ (s : State) (n : Nibble),
    exec (.movRxN 13 n) s = .next { s.setCell 0x0D n with pc := s.cell 0x0F ++ s.cell 0x0E ++ n }

/-- D2, D4 (R142; log 10, 12): a named write of JSR with room on the stack pushes `pc`, low nibble first, at level SP, increments SP
and loads `pc` with PCH:PCM:JSR; with the stack full it stops. -/
def Obligations.WriteOfJsrCalls : Prop :=
  ∀ (s : State) (n : Nibble), s.params.stackDepth ≤ 5 →
    (s.params.stackDepth ≤ s.sp → exec (.movRxN 12 n) s = .fault (.stackOverflow (s.pc - 1))) ∧
    (s.sp < s.params.stackDepth →
      let base := 0x10 + 3 * s.sp
      ∃ t, exec (.movRxN 12 n) s = .next t
        ∧ t.pc = s.cell 0x0F ++ s.cell 0x0E ++ n ∧ t.sp = s.sp + 1
        ∧ t.cell 0x0C = n
        ∧ t.cell (BitVec.ofNat 8 (base + 2)) ++ t.cell (BitVec.ofNat 8 (base + 1)) ++ t.cell (BitVec.ofNat 8 base) = s.pc
        ∧ (∀ a : DataAddr, a ≠ 0x0C → ¬ (base ≤ a.toNat ∧ a.toNat ≤ base + 2) → t.cell a = s.cell a)
        ∧ t.c = s.c ∧ t.z = s.z ∧ t.v = s.v ∧ t.pm = s.pm ∧ t.params = s.params ∧ t.outputs = s.outputs
        ∧ t.inputs = s.inputs ∧ t.inputsRead = s.inputsRead)

/-- D3 (R143, R144; log 11): under OTHER_PC_WRITES = plain a class other write of JSR or PCL completes and only stores: SP and, DSZ's
skip aside, `pc` are as without it. The last row of R144's table, EXR, is `ExchangeRegisters`. -/
def Obligations.OtherWritesArePlain : Prop :=
  ∀ (s : State) (x y p q : Reg) (i : Instr), s.params.otherPcWrites = .plain → (x = 12 ∨ x = 13) →
    (i ∈ ([.addRxRy x y, .adcRxRy x y, .subRxRy x y, .sbbRxRy x y, .orRxRy x y, .andRxRy x y, .xorRxRy x y,
      .movNnR0 (x.setWidth 8), .dszRy x, .rrcRy x] : List Instr) ∨ i = .movXyR0 p q ∧ s.pairOf p q = x.setWidth 8) →
    ∃ t, exec i s = .next t ∧ t.sp = s.sp
      ∧ t.pc = (if i = .dszRy x ∧ s.cell (x.setWidth 8) = 1 then s.pc + 1 else s.pc)
      ∧ ∀ a, a ≠ x.setWidth 8 → t.cell a = s.cell a

/-- D3 (R143, R144, R145; log 11, 22): under OTHER_PC_WRITES = trigger a class other write of PCL is followed by the jump and one of JSR,
with room on the stack, by the call, both with the value just written; DSZ then adds no skip. Where the jump goes is D1 (log 9), what
the call pushes and where it goes D2 (log 10), the room D4 (log 12). EXR over JSR stops under this setting,
`FaultsExactlyWhereTabulated`. -/
def Obligations.OtherWritesTrigger : Prop :=
  ∀ (s : State) (x y p q : Reg) (i : Instr), s.params.otherPcWrites = .trigger → s.params.stackDepth ≤ 5 →
    (x = 12 ∧ s.sp < s.params.stackDepth ∨ x = 13) →
    (i ∈ ([.addRxRy x y, .adcRxRy x y, .subRxRy x y, .sbbRxRy x y, .orRxRy x y, .andRxRy x y, .xorRxRy x y,
      .movNnR0 (x.setWidth 8), .dszRy x, .rrcRy x] : List Instr) ∨ i = .movXyR0 p q ∧ s.pairOf p q = x.setWidth 8) →
    ∃ t, exec i s = .next t ∧ t.pc = s.cell 0x0F ++ s.cell 0x0E ++ t.cell (x.setWidth 8)
      ∧ t.sp = (if x = 12 then s.sp + 1 else s.sp) ∧ (x = 12 → t.returnAddr s.sp = s.pc)

/-- D7 (R24, R44, R45; log 6, 7, 15): under IO_MODEL = external a load from the active IN location gives the next nibble of the
supply and takes it, a store to the active OUT location makes one Output event; a store to WRFLAGS, under every
setting, makes no event and moves both locations by its bit 1. -/
def Obligations.InputAndOutput : Prop :=
  ∀ s : State,
    (∀ n rest, s.params.ioModel = .external → s.inputs = n :: rest →
      exec (.movR0Nn (if (s.cell 0xF3).getLsbD 1 then 0xFB else 0x0B)) s = .next
        { s.setCell 0x00 n with inputs := rest, inputsRead := s.inputsRead + 1 }) ∧
    (s.params.ioModel = .external → ∀ a : DataAddr, a = (if (s.cell 0xF3).getLsbD 1 then 0xFA else 0x0A) →
      exec (.movNnR0 a) s = .next { s.setCell a (s.cell 0x00) with outputs := s.outputs ++ [s.cell 0x00] }) ∧
    (∃ t, exec (.movNnR0 0xF3) s = .next t ∧ t = s.setCell 0xF3 (s.cell 0x00)
      ∧ t.inAddr = (if (s.cell 0x00).getLsbD 1 then 0xFB else 0x0B)
      ∧ t.outAddr = (if (s.cell 0x00).getLsbD 1 then 0xFA else 0x0A))

/-! Whole-machine rules. -/

/-- R67, R220: no step of the machine refuses its instruction, in any state. -/
def Obligations.NoStepRefuses : Prop := ∀ (s : State) (r : Refusal), step s ≠ .refused r

/-- R222, R223: an instruction faults exactly where the table of the four model faults says, with that fault and with the address of
the instruction (`pc` from before the fetch). The four faults are decisions D3, D4, D8, D11 (log 11, 12, 16). -/
def Obligations.FaultsExactlyWhereTabulated : Prop :=
  ∀ (s : State) (i : Instr) (f : Fault), exec i s = .fault f ↔ s.faultCondition i f

/-- R27, R53 (D13, log 28) and log 1: no step changes program memory or the parameters. -/
def Obligations.ProgramIsNeverWritten : Prop :=
  ∀ s t : State, step s = .next t → t.pm = s.pm ∧ t.params = s.params

/-- R18: an instruction changes no flag but those its row of the flag table names. V after instructions whose page is silent on it is
D15 (log 19). -/
def Obligations.FlagsChangeOnlyByTable : Prop :=
  ∀ (s t : State) (i : Instr), exec i s = .next t →
    ((flagsWritten i).1 = false → t.c = s.c) ∧ ((flagsWritten i).2.1 = false → t.z = s.z)
      ∧ ((flagsWritten i).2.2 = false → t.v = s.v)

/-- R21, R200: SP changes only by a call, which needs a write of JSR and adds 1, and by RET, which subtracts 1. That SP is hidden
state nothing else changes is D4 (log 12), which writes of JSR call is R143 (D3, log 11). -/
def Obligations.StackPointerChangesOnlyByCallAndRet : Prop :=
  ∀ (s t : State) (i : Instr), exec i s = .next t →
    t.sp = s.sp ∨ (t.sp = s.sp + 1 ∧ ∃ k, s.finalWrite i = some (0x0C, k) ∧ s.triggers 0x0C k = true)
      ∨ (t.sp + 1 = s.sp ∧ ∃ n, i = .retR0N n)

/-- R17: `pc` stays as the fetch left it but for JR, a SKIP whose condition holds, a DSZ that skips, RET, and the writes of PCL and JSR
that start a jump or a call (D3, log 11). -/
def Obligations.PcMovesOnlyByTable : Prop :=
  ∀ (s t : State) (i : Instr), exec i s = .next t → ¬ s.mayMovePc i → t.pc = s.pc

/-- R45, R50, R120: an instruction adds at most one Output event after those made before, and makes at most one Input(). The
events and inputs are D7 (log 6, 7, 15), the single read D16 (log 8). -/
def Obligations.AtMostOneEventPerInstruction : Prop :=
  ∀ (s t : State) (i : Instr), exec i s = .next t →
    (∃ e : List Nibble, e.length ≤ 1 ∧ t.outputs = s.outputs ++ e)
      ∧ (t.inputs = s.inputs ∧ t.inputsRead = s.inputsRead ∨ t.inputs = s.inputs.tail ∧ t.inputsRead = s.inputsRead + 1)

/-! Frames: what an instruction leaves unchanged when it answers a next state. The flags of every instruction are
`FlagsChangeOnlyByTable`, its `pc` is `PcMovesOnlyByTable`. -/

/-- R100, R120, R143: the instructions whose destination is one register RX change no other cell, but the three cells of the
level a call pushes to, and only with RX = JSR; no program word or parameter, SP only by that call, and make an event only where RX is
the active OUT register. That a call changes just those cells and adds 1 to SP is D2 (R142; log 10), which writes call D3 (log 11), that
a write of OUT is an event D7 (log 15). -/
def Obligations.RegisterWriterFrame : Prop :=
  ∀ (s t : State) (x y : Reg) (n : Nibble) (i : Instr),
    i ∈ ([.addRxRy x y, .adcRxRy x y, .subRxRy x y, .sbbRxRy x y, .orRxRy x y, .andRxRy x y, .xorRxRy x y,
      .movRxRy x y, .movRxN x n, .incRy x, .decRy x, .dszRy x, .rrcRy x] : List Instr) →
    exec i s = .next t →
    (∀ a, a ≠ regCell x → (t.sp = s.sp ∨ ¬ inStackLevel s.sp a) → t.cell a = s.cell a)
      ∧ (t.sp = s.sp ∨ x = 12 ∧ t.sp = s.sp + 1) ∧ t.pm = s.pm ∧ t.params = s.params
      ∧ (regCell x ≠ s.outAddr → t.outputs = s.outputs)

/-- R123, R125, R143: a store changes no cell but the one at its address, `x[X] : x[Y]` or NN, and, where the address is JSR's and the
write calls, the three cells pushed to; no flag, program word or parameter. That a call changes just those cells and adds 1 to SP is D2
(R142; log 10), that such a store calls at all D3 (log 11), that a store to OUT is an event D7 (log 15). -/
def Obligations.StoreFrame : Prop :=
  ∀ (s t : State) (x y : Reg) (nn a : DataAddr) (i : Instr),
    (i = .movXyR0 x y ∧ a = s.pairOf x y ∨ i = .movNnR0 nn ∧ a = nn) →
    exec i s = .next t →
    (∀ d, d ≠ a → (t.sp = s.sp ∨ ¬ inStackLevel s.sp d) → t.cell d = s.cell d)
      ∧ (t.sp = s.sp ∨ a = 0x0C ∧ t.sp = s.sp + 1)
      ∧ t.c = s.c ∧ t.z = s.z ∧ t.v = s.v ∧ t.pm = s.pm ∧ t.params = s.params
      ∧ (a ≠ s.outAddr → t.outputs = s.outputs)

/-- R124, R126, R160, R202: the instructions that write R0 alone change no other cell, no program word or parameter, and make no
event; SP changes by RET only. -/
def Obligations.R0WriterFrame : Prop :=
  ∀ (s t : State) (x y : Reg) (nn : DataAddr) (n : Nibble) (i : Instr),
    i ∈ ([.movR0Xy x y, .movR0Nn nn, .addR0N n, .orR0N n, .andR0N n, .xorR0N n, .retR0N n] : List Instr) →
    exec i s = .next t →
    (∀ a, a ≠ 0x00 → t.cell a = s.cell a) ∧ (i ≠ .retR0N n → t.sp = s.sp) ∧ t.pm = s.pm ∧ t.params = s.params
      ∧ t.outputs = s.outputs

/-- R182 to R186: BSET, BCLR and BTG change no cell but the one RG names, no flag, no `pc`, SP, program word or parameter. That a
read of OUT is no Input() is D23 (log 23), that its write is an event D7 (log 15). -/
def Obligations.BitModifierFrame : Prop :=
  ∀ (s t : State) (g : BitReg) (m : BitVec 2) (i : Instr),
    i ∈ ([.bsetRgM g m, .bclrRgM g m, .btgRgM g m] : List Instr) → exec i s = .next t →
    (∀ a, a ≠ s.modifyAddr g → t.cell a = s.cell a) ∧ t.pc = s.pc ∧ t.sp = s.sp ∧ t.c = s.c ∧ t.z = s.z ∧ t.v = s.v
      ∧ t.pm = s.pm ∧ t.params = s.params ∧ t.inputs = s.inputs ∧ t.inputsRead = s.inputsRead
      ∧ (s.modifyAddr g ≠ s.outAddr → t.outputs = s.outputs)

/-- R140, R161, R183, R203: JR, CP, BIT and SKIP write no cell at all, no program word, parameter, SP, and make no event. -/
def Obligations.NothingStoredFrame : Prop :=
  ∀ (s t : State) (nn : BitVec 8) (n : Nibble) (g : BitReg) (f : Cond) (m : BitVec 2) (i : Instr),
    i ∈ ([.jrNn nn, .cpR0N n, .bitRgM g m, .skipFM f m] : List Instr) → exec i s = .next t →
    (∀ a, t.cell a = s.cell a) ∧ t.sp = s.sp ∧ t.pm = s.pm ∧ t.params = s.params ∧ t.outputs = s.outputs

/-! Reset and invariants. -/

/-- R29, R240: the reset state has `pc`, SP and IOPOS at the values the recommended parameters give, meets the invariant, and is a
launch; so is the reset state under every setting of the parameters. The values are D10 (log 2, 3, 4). -/
def Obligations.ResetIsALaunch : Prop :=
  State.reset.pc = 0x000 ∧ State.reset.sp = 0 ∧ State.reset.iopos = false ∧ State.reset.params.stackDepth = 5
    ∧ ∀ p : Params, paramsFit p → (State.resetWith p).isLaunch

/-- R21, R22, R26, R27: every step from a state that meets the invariant gives a state that meets it: both memories stay in
canonical form within their address spaces, and SP stays between 0 and STACK_DEPTH. -/
def Obligations.StepKeepsTheInvariant : Prop :=
  ∀ s t : State, s.Inv → step s = .next t → t.Inv

/-- The canonical form makes memories that read alike the same data (the model's form, log 2). -/
def Obligations.MemoriesThatReadAlikeAreEqual : Prop :=
  ∀ (w size : Nat) (m m' : Memory w), m.wf size → m'.wf size → (∀ a, m.read a = m'.read a) → m = m'

/-! Sequences. -/

/-- R46, R50: what MOV [NN],R0 stores at a plain cell other than JSR and PCL, the next MOV R0,[NN] loads, whatever R0 holds in between.
For 0x0A, the active OUT where IOPOS is 0, the read-back is D7 (R45, log 15). R0 itself, 0x0B, JSR, PCL and page 15 are left to `StoreR0`
and `LoadR0`. -/
def Obligations.StoreThenLoad : Prop :=
  ∀ (s : State) (nn : DataAddr) (v : Nibble), nn.toNat < 0xF0 → nn ≠ 0x0B → nn ≠ 0x0C → nn ≠ 0x0D → nn ≠ 0x00 →
    ∃ t u, exec (.movNnR0 nn) s = .next t ∧ exec (.movR0Nn nn) (t.setCell 0x00 v) = .next u
      ∧ u.cell 0x00 = s.cell 0x00 ∧ u.cell nn = s.cell 0x00

/-- R101, R102 (program P2 of 95_test_vectors.md): ADD of the low nibbles and then ADC of the high nibbles add two 8-bit numbers, and
leave the carry of the 8-bit sum in C. -/
def Obligations.AddThenAdcAddsBytes : Prop :=
  ∀ (s : State) (x0 x1 y0 y1 : Reg), x0 ≠ 12 → x0 ≠ 13 → x1 ≠ 12 → x1 ≠ 13 → x1 ≠ x0 → y1 ≠ x0 →
    (∀ r, r ∈ [x0, x1, y0, y1] → s.readsInput (regCell r) = false) →
    ∃ t u, exec (.addRxRy x0 y0) s = .next t ∧ exec (.adcRxRy x1 y1) t = .next u
      ∧ (if u.c then 256 else 0) + 16 * (u.cell (regCell x1)).toNat + (u.cell (regCell x0)).toNat
        = (16 * (s.cell (regCell x1)).toNat + (s.cell (regCell x0)).toNat)
          + (16 * (s.cell (regCell y1)).toNat + (s.cell (regCell y0)).toNat)

/-- R103, R104 ("SUB on the low nibbles followed by SBB on the high nibbles subtracts 8-bit numbers"): with C = 0 after them exactly
when the 8-bit difference borrows. -/
def Obligations.SubThenSbbSubtractsBytes : Prop :=
  ∀ (s : State) (x0 x1 y0 y1 : Reg), x0 ≠ 12 → x0 ≠ 13 → x1 ≠ 12 → x1 ≠ 13 → x1 ≠ x0 → y1 ≠ x0 →
    (∀ r, r ∈ [x0, x1, y0, y1] → s.readsInput (regCell r) = false) →
    ∃ t u, exec (.subRxRy x0 y0) s = .next t ∧ exec (.sbbRxRy x1 y1) t = .next u
      ∧ 16 * (u.cell (regCell x1)).toNat + (u.cell (regCell x0)).toNat
          + (16 * (s.cell (regCell y1)).toNat + (s.cell (regCell y0)).toNat)
        = (16 * (s.cell (regCell x1)).toNat + (s.cell (regCell x0)).toNat) + (if u.c then 0 else 256)

/-- R181: EXR N twice restores every cell, where no cell it exchanges is read from the environment. That OUT reads back
is D7 (log 15). The forms with n ≥ 13 need
OTHER_PC_WRITES = plain (D3, log 11, 21). -/
def Obligations.ExchangeTwiceRestores : Prop :=
  ∀ (s : State) (n : Nibble), s.exrFault (exrCount n) = none →
    (∀ k, k < exrCount n → s.readsInput (BitVec.ofNat 8 k) = false) →
    ∃ t u, exec (.exrN n) s = .next t ∧ exec (.exrN n) t = .next u ∧ ∀ a, u.cell a = s.cell a

/-- D2, D4 (R142, R202; log 10, 12): a RET in any later state with the call's SP, whose three cells at the call's level still hold what was
pushed, resumes at the instruction after the one that called, with SP as before the call. -/
def Obligations.ReturnResumesAfterTheCall : Prop :=
  ∀ (s t u : State) (y : Reg) (n m : Nibble) (i : Instr), s.params.stackDepth ≤ 5 →
    i ∈ ([.movRxRy 12 y, .movRxN 12 n, .incRy 12, .decRy 12] : List Instr) → exec i s = .next t →
    u.sp = t.sp → (∀ a, inStackLevel s.sp a → u.cell a = t.cell a) →
    ∃ v, exec (.retR0N m) u = .next v ∧ v.pc = s.pc ∧ v.sp = s.sp ∧ v.cell 0x00 = m

/-- R140, R246: where the word at `pc` is 0xFFF, JR -1, a step changes nothing at all. The end-of-run convention is D14 (log 26). -/
def Obligations.SelfJumpChangesNothing : Prop :=
  ∀ s : State, s.ended = true → step s = .next s

/-- R75, R225: the source's idioms do what they stand for, on every register but JSR, PCL and the active I/O locations: shift left,
rotate left through carry; SET C, CLEAR C, TOGGLE C keep R0 and lose Z; MOV R0,R0 does nothing.
That the three keep V is D15 (R160, log 19). Shift and rotate on the active OUT are `AddRegisters` and `AddRegistersWithCarry`. -/
def Obligations.IdiomsDoWhatTheyStandFor : Prop :=
  ∀ s : State, s.Inv →
    encode idiomSetC = 0x050 ∧ encode idiomClearC = 0x06F ∧ encode idiomToggleC = 0x070 ∧ encode idiomNop = 0x800
      ∧ (∀ x : Reg, encode (idiomSL x) = 0b0001#4 ++ x ++ x ∧ encode (idiomRLC x) = 0b0010#4 ++ x ++ x)
      ∧ exec idiomSetC s = .next { s with c := true, z := decide (s.cell 0x00 = 0) }
      ∧ exec idiomClearC s = .next { s with c := false, z := decide (s.cell 0x00 = 0) }
      ∧ exec idiomToggleC s = .next { s with c := !s.c, z := decide (s.cell 0x00 = 0) }
      ∧ exec idiomNop s = .next s
      ∧ ∀ x : Reg, x ≠ 12 → x ≠ 13 → s.readsInput (regCell x) = false → regCell x ≠ s.outAddr →
        let a := s.cell (regCell x)
        ∃ t u, exec (idiomSL x) s = .next t ∧ exec (idiomRLC x) s = .next u
          ∧ (∀ j, j < 3 → (t.cell (regCell x)).getLsbD (j + 1) = a.getLsbD j ∧ (u.cell (regCell x)).getLsbD (j + 1) = a.getLsbD j)
          ∧ (t.cell (regCell x)).getLsbD 0 = false ∧ (u.cell (regCell x)).getLsbD 0 = s.c
          ∧ t.c = a.getLsbD 3 ∧ u.c = a.getLsbD 3

/-! The assembler's notation. -/

/-- R71 to R74: a statement stands for an instruction exactly when its operands have the forms and ranges of the table. The model's
reading of the table is log 27. -/
def Obligations.WellFormedStatementsAssemble : Prop :=
  ∀ st : Stmt, st.wf = true ↔ ∃ i, assembled st = some i
end

