-- ==== Sys2Proof/Laws/Encoding.lean ====
section
/-!
SUPPORT. Words and fields as numbers, and each field of each format's word.
-/
namespace Sys2Proof

theorem wordXY_toNat (op x y : BitVec 4) : (wordXY op x y).toNat = op.toNat * 256 + x.toNat * 16 + y.toNat := by
  have h : (wordXY op x y).toNat = ((op.toNat <<< 4 ||| x.toNat) <<< 4) ||| y.toNat := by
    show (op ++ x ++ y : BitVec (4 + 4 + 4)).toNat = _
    rw [BitVec.toNat_append, BitVec.toNat_append]
  rw [h, ← Nat.shiftLeft_add_eq_or_of_lt x.isLt, ← Nat.shiftLeft_add_eq_or_of_lt y.isLt]
  simp only [Nat.shiftLeft_eq]
  omega

theorem wordNN_toNat (op : BitVec 4) (nn : BitVec 8) : (wordNN op nn).toNat = op.toNat * 256 + nn.toNat := by
  have h : (wordNN op nn).toNat = (op.toNat <<< 8) ||| nn.toNat := by
    show (op ++ nn : BitVec (4 + 8)).toNat = _
    rw [BitVec.toNat_append]
  rw [h, ← Nat.shiftLeft_add_eq_or_of_lt nn.isLt, Nat.shiftLeft_eq]

theorem wordGM_toNat (sub : BitVec 4) (g m : BitVec 2) :
    (wordGM sub g m).toNat = sub.toNat * 16 + g.toNat * 4 + m.toNat := by
  have h : (wordGM sub g m).toNat = (((0 <<< 4 ||| sub.toNat) <<< 2) ||| g.toNat) <<< 2 ||| m.toNat := by
    show (0#4 ++ sub ++ g ++ m : BitVec (4 + 4 + 2 + 2)).toNat = _
    rw [BitVec.toNat_append, BitVec.toNat_append, BitVec.toNat_append]; rfl
  rw [h, ← Nat.shiftLeft_add_eq_or_of_lt m.isLt, ← Nat.shiftLeft_add_eq_or_of_lt g.isLt,
    ← Nat.shiftLeft_add_eq_or_of_lt sub.isLt]
  simp only [Nat.shiftLeft_eq]
  omega

theorem fieldOp_toNat (w : InstrWord) : (fieldOp w).toNat = w.toNat / 256 := by
  have := w.isLt
  simp [fieldOp, Nat.shiftRight_eq_div_pow]; omega

theorem fieldX_toNat (w : InstrWord) : (fieldX w).toNat = w.toNat / 16 % 16 := by
  simp [fieldX, Nat.shiftRight_eq_div_pow]

theorem fieldY_toNat (w : InstrWord) : (fieldY w).toNat = w.toNat % 16 := by
  simp [fieldY]

theorem fieldNN_toNat (w : InstrWord) : (fieldNN w).toNat = w.toNat % 256 := by
  simp [fieldNN]

theorem fieldG_toNat (w : InstrWord) : (fieldG w).toNat = w.toNat / 4 % 4 := by
  simp [fieldG, Nat.shiftRight_eq_div_pow]

theorem fieldM_toNat (w : InstrWord) : (fieldM w).toNat = w.toNat % 4 := by
  simp [fieldM]

/-! The fields of each format's word. -/

@[simp] theorem fieldOp_wordXY (op x y : BitVec 4) : fieldOp (wordXY op x y) = op := by
  apply BitVec.eq_of_toNat_eq; rw [fieldOp_toNat, wordXY_toNat]; omega
@[simp] theorem fieldX_wordXY (op x y : BitVec 4) : fieldX (wordXY op x y) = x := by
  apply BitVec.eq_of_toNat_eq; rw [fieldX_toNat, wordXY_toNat]; omega
@[simp] theorem fieldY_wordXY (op x y : BitVec 4) : fieldY (wordXY op x y) = y := by
  apply BitVec.eq_of_toNat_eq; rw [fieldY_toNat, wordXY_toNat]; omega
@[simp] theorem fieldOp_wordNN (op : BitVec 4) (nn : BitVec 8) : fieldOp (wordNN op nn) = op := by
  apply BitVec.eq_of_toNat_eq; rw [fieldOp_toNat, wordNN_toNat]; omega
@[simp] theorem fieldNN_wordNN (op : BitVec 4) (nn : BitVec 8) : fieldNN (wordNN op nn) = nn := by
  apply BitVec.eq_of_toNat_eq; rw [fieldNN_toNat, wordNN_toNat]; omega
@[simp] theorem fieldOp_wordGM (sub : BitVec 4) (g m : BitVec 2) : fieldOp (wordGM sub g m) = 0 := by
  apply BitVec.eq_of_toNat_eq; rw [fieldOp_toNat, wordGM_toNat]; simp; omega
@[simp] theorem fieldX_wordGM (sub : BitVec 4) (g m : BitVec 2) : fieldX (wordGM sub g m) = sub := by
  apply BitVec.eq_of_toNat_eq; rw [fieldX_toNat, wordGM_toNat]; omega
@[simp] theorem fieldG_wordGM (sub : BitVec 4) (g m : BitVec 2) : fieldG (wordGM sub g m) = g := by
  apply BitVec.eq_of_toNat_eq; rw [fieldG_toNat, wordGM_toNat]; omega
@[simp] theorem fieldM_wordGM (sub : BitVec 4) (g m : BitVec 2) : fieldM (wordGM sub g m) = m := by
  apply BitVec.eq_of_toNat_eq; rw [fieldM_toNat, wordGM_toNat]; omega

/-- Formats 0N and 0Y are formats RR with opcode 0. -/
theorem wordSub_eq (sub y : BitVec 4) : wordSub sub y = wordXY 0 sub y := rfl

@[simp] theorem bitRegOf_bits (g : BitReg) : bitRegOf (bitRegBits g) = g := by cases g <;> rfl
@[simp] theorem condOf_bits (f : Cond) : condOf (condBits f) = f := by cases f <;> rfl

end Sys2Proof
end

