-- ==== Sys2Proof/Laws/Memory.lean ====
section
/-!
SUPPORT. What each memory operation does, and that each keeps the canonical form.
-/
namespace Sys2Proof.Machine

variable {w : Nat}

theorem Memory.read_remove_same (m : Memory w) (a : Nat) : (m.remove a).read a = Memory.unlisted := by
  induction m with
  | nil => rfl
  | cons e m ih =>
    obtain ⟨k, u⟩ := e
    by_cases h : a = k <;> simp_all [Memory.remove, Memory.read]

theorem Memory.read_remove_other (m : Memory w) {a b : Nat} (h : b ≠ a) : (m.remove a).read b = m.read b := by
  induction m with
  | nil => rfl
  | cons e m ih =>
    obtain ⟨k, u⟩ := e
    by_cases hk : a = k
    · subst hk; simp [Memory.remove, Memory.read, h, ih]
    · simp [Memory.remove, Memory.read, hk, ih]

theorem Memory.read_insert_same (m : Memory w) (a : Nat) (v : BitVec w) : (m.insert a v).read a = v := by
  induction m with
  | nil => simp [Memory.insert, Memory.read]
  | cons e m ih =>
    obtain ⟨k, u⟩ := e
    simp only [Memory.insert]
    split
    · simp [Memory.read]
    · split <;> simp_all [Memory.read]

theorem Memory.read_insert_other (m : Memory w) {a b : Nat} (v : BitVec w) (h : b ≠ a) :
    (m.insert a v).read b = m.read b := by
  induction m with
  | nil => simp [Memory.insert, Memory.read, h]
  | cons e m ih =>
    obtain ⟨k, u⟩ := e
    simp only [Memory.insert]
    split
    · simp [Memory.read, h]
    · split
      · subst_vars; simp [Memory.read, h]
      · simp [Memory.read, ih]

/-- A write, read back at any address. -/
theorem Memory.read_write_eq (m : Memory w) (a b : Nat) (v : BitVec w) :
    (m.write a v).read b = if b = a then v else m.read b := by
  unfold Memory.write
  by_cases h : b = a
  · subst h
    split <;> simp_all [Memory.read_remove_same, Memory.read_insert_same]
  · split <;> simp [h, Memory.read_remove_other, Memory.read_insert_other]

theorem Memory.mem_remove {m : Memory w} {a : Nat} {e : Nat × BitVec w} (h : e ∈ m.remove a) : e ∈ m := by
  induction m with
  | nil => exact h
  | cons d m ih =>
    obtain ⟨k, u⟩ := d
    simp only [Memory.remove] at h
    split at h
    · exact List.mem_cons_of_mem _ (ih h)
    · rcases List.mem_cons.1 h with h | h
      · exact h ▸ List.mem_cons_self
      · exact List.mem_cons_of_mem _ (ih h)

theorem Memory.mem_insert {m : Memory w} {a : Nat} {v : BitVec w} {e : Nat × BitVec w} (h : e ∈ m.insert a v) :
    e = (a, v) ∨ e ∈ m := by
  induction m with
  | nil => simpa [Memory.insert] using h
  | cons d m ih =>
    obtain ⟨k, u⟩ := d
    simp only [Memory.insert] at h
    split at h
    · simpa using h
    · split at h
      · rcases List.mem_cons.1 h with h | h
        · exact .inl h
        · exact .inr (List.mem_cons_of_mem _ h)
      · rcases List.mem_cons.1 h with h | h
        · exact .inr (h ▸ List.mem_cons_self)
        · exact (ih h).imp_right (List.mem_cons_of_mem _)

theorem Memory.remove_wf {size : Nat} {m : Memory w} (a : Nat) (h : m.wf size) : (m.remove a).wf size := by
  refine ⟨?_, fun e he => h.2 e (Memory.mem_remove he)⟩
  have h1 := h.1
  clear h
  induction m with
  | nil => exact List.Pairwise.nil
  | cons d m ih =>
    obtain ⟨k, u⟩ := d
    rw [List.pairwise_cons] at h1
    simp only [Memory.remove]
    split
    · exact ih h1.2
    · exact List.pairwise_cons.2 ⟨fun e he => h1.1 e (Memory.mem_remove he), ih h1.2⟩

theorem Memory.insert_wf {size : Nat} {m : Memory w} {a : Nat} {v : BitVec w} (ha : a < size)
    (hv : v ≠ Memory.unlisted) (h : m.wf size) : (m.insert a v).wf size := by
  refine ⟨?_, fun e he => (Memory.mem_insert he).elim (fun e => e ▸ ⟨ha, hv⟩) (h.2 e)⟩
  have h1 := h.1
  clear h
  induction m with
  | nil => exact List.pairwise_singleton _ _
  | cons d m ih =>
    obtain ⟨k, u⟩ := d
    have h2 := List.pairwise_cons.1 h1
    simp only [Memory.insert]
    split
    · rename_i hlt
      refine List.pairwise_cons.2 ⟨fun e he => ?_, h1⟩
      rcases List.mem_cons.1 he with he | he
      · exact he ▸ hlt
      · exact lt_trans hlt (h2.1 e he)
    · split
      · subst_vars; exact List.pairwise_cons.2 h2
      · refine List.pairwise_cons.2 ⟨fun e he => ?_, ih h2.2⟩
        rcases Memory.mem_insert he with he | he
        · subst he; show k < a; omega
        · exact h2.1 e he

/-- Every write keeps the canonical form; the other operations, `read` aside, are its parts. -/
theorem Memory.write_wf {size : Nat} {m : Memory w} {a : Nat} (v : BitVec w) (ha : a < size) (h : m.wf size) :
    (m.write a v).wf size := by
  unfold Memory.write
  split
  · exact Memory.remove_wf a h
  · exact Memory.insert_wf ha ‹_› h

/-- An address below every listed one is not listed. -/
theorem Memory.read_below {m : Memory w} {a : Nat} (h : ∀ e ∈ m, a < e.1) : m.read a = Memory.unlisted := by
  induction m with
  | nil => rfl
  | cons d m ih =>
    obtain ⟨k, u⟩ := d
    have : a ≠ k := Nat.ne_of_lt (h (k, u) List.mem_cons_self)
    simp [Memory.read, this, ih fun e he => h e (List.mem_cons_of_mem _ he)]

end Sys2Proof.Machine
end

