-- ==== Sys2Proof/Laws/State.lean ====
section
/-!
SUPPORT. One lemma per field per named update of the state, each true by rfl.
-/
namespace Sys2Proof.Machine

open Sys2Proof

@[simp] theorem State.setPc_pc (s : State) (t : ProgAddr) : (s.setPc t).pc = t := rfl
@[simp] theorem State.setPc_sp (s : State) (t : ProgAddr) : (s.setPc t).sp = s.sp := rfl
@[simp] theorem State.setPc_c (s : State) (t : ProgAddr) : (s.setPc t).c = s.c := rfl
@[simp] theorem State.setPc_z (s : State) (t : ProgAddr) : (s.setPc t).z = s.z := rfl
@[simp] theorem State.setPc_v (s : State) (t : ProgAddr) : (s.setPc t).v = s.v := rfl
@[simp] theorem State.setPc_dm (s : State) (t : ProgAddr) : (s.setPc t).dm = s.dm := rfl
@[simp] theorem State.setPc_pm (s : State) (t : ProgAddr) : (s.setPc t).pm = s.pm := rfl
@[simp] theorem State.setPc_params (s : State) (t : ProgAddr) : (s.setPc t).params = s.params := rfl
@[simp] theorem State.setPc_inputs (s : State) (t : ProgAddr) : (s.setPc t).inputs = s.inputs := rfl
@[simp] theorem State.setPc_inputsRead (s : State) (t : ProgAddr) : (s.setPc t).inputsRead = s.inputsRead := rfl
@[simp] theorem State.setPc_outputs (s : State) (t : ProgAddr) : (s.setPc t).outputs = s.outputs := rfl

@[simp] theorem State.setSp_pc (s : State) (n : Nat) : (s.setSp n).pc = s.pc := rfl
@[simp] theorem State.setSp_sp (s : State) (n : Nat) : (s.setSp n).sp = n := rfl
@[simp] theorem State.setSp_c (s : State) (n : Nat) : (s.setSp n).c = s.c := rfl
@[simp] theorem State.setSp_z (s : State) (n : Nat) : (s.setSp n).z = s.z := rfl
@[simp] theorem State.setSp_v (s : State) (n : Nat) : (s.setSp n).v = s.v := rfl
@[simp] theorem State.setSp_dm (s : State) (n : Nat) : (s.setSp n).dm = s.dm := rfl
@[simp] theorem State.setSp_pm (s : State) (n : Nat) : (s.setSp n).pm = s.pm := rfl
@[simp] theorem State.setSp_params (s : State) (n : Nat) : (s.setSp n).params = s.params := rfl
@[simp] theorem State.setSp_inputs (s : State) (n : Nat) : (s.setSp n).inputs = s.inputs := rfl
@[simp] theorem State.setSp_inputsRead (s : State) (n : Nat) : (s.setSp n).inputsRead = s.inputsRead := rfl
@[simp] theorem State.setSp_outputs (s : State) (n : Nat) : (s.setSp n).outputs = s.outputs := rfl

@[simp] theorem State.setC_pc (s : State) (b : Bool) : (s.setC b).pc = s.pc := rfl
@[simp] theorem State.setC_sp (s : State) (b : Bool) : (s.setC b).sp = s.sp := rfl
@[simp] theorem State.setC_c (s : State) (b : Bool) : (s.setC b).c = b := rfl
@[simp] theorem State.setC_z (s : State) (b : Bool) : (s.setC b).z = s.z := rfl
@[simp] theorem State.setC_v (s : State) (b : Bool) : (s.setC b).v = s.v := rfl
@[simp] theorem State.setC_dm (s : State) (b : Bool) : (s.setC b).dm = s.dm := rfl
@[simp] theorem State.setC_pm (s : State) (b : Bool) : (s.setC b).pm = s.pm := rfl
@[simp] theorem State.setC_params (s : State) (b : Bool) : (s.setC b).params = s.params := rfl
@[simp] theorem State.setC_inputs (s : State) (b : Bool) : (s.setC b).inputs = s.inputs := rfl
@[simp] theorem State.setC_inputsRead (s : State) (b : Bool) : (s.setC b).inputsRead = s.inputsRead := rfl
@[simp] theorem State.setC_outputs (s : State) (b : Bool) : (s.setC b).outputs = s.outputs := rfl

@[simp] theorem State.setZ_pc (s : State) (b : Bool) : (s.setZ b).pc = s.pc := rfl
@[simp] theorem State.setZ_sp (s : State) (b : Bool) : (s.setZ b).sp = s.sp := rfl
@[simp] theorem State.setZ_c (s : State) (b : Bool) : (s.setZ b).c = s.c := rfl
@[simp] theorem State.setZ_z (s : State) (b : Bool) : (s.setZ b).z = b := rfl
@[simp] theorem State.setZ_v (s : State) (b : Bool) : (s.setZ b).v = s.v := rfl
@[simp] theorem State.setZ_dm (s : State) (b : Bool) : (s.setZ b).dm = s.dm := rfl
@[simp] theorem State.setZ_pm (s : State) (b : Bool) : (s.setZ b).pm = s.pm := rfl
@[simp] theorem State.setZ_params (s : State) (b : Bool) : (s.setZ b).params = s.params := rfl
@[simp] theorem State.setZ_inputs (s : State) (b : Bool) : (s.setZ b).inputs = s.inputs := rfl
@[simp] theorem State.setZ_inputsRead (s : State) (b : Bool) : (s.setZ b).inputsRead = s.inputsRead := rfl
@[simp] theorem State.setZ_outputs (s : State) (b : Bool) : (s.setZ b).outputs = s.outputs := rfl

@[simp] theorem State.setV_pc (s : State) (b : Bool) : (s.setV b).pc = s.pc := rfl
@[simp] theorem State.setV_sp (s : State) (b : Bool) : (s.setV b).sp = s.sp := rfl
@[simp] theorem State.setV_c (s : State) (b : Bool) : (s.setV b).c = s.c := rfl
@[simp] theorem State.setV_z (s : State) (b : Bool) : (s.setV b).z = s.z := rfl
@[simp] theorem State.setV_v (s : State) (b : Bool) : (s.setV b).v = b := rfl
@[simp] theorem State.setV_dm (s : State) (b : Bool) : (s.setV b).dm = s.dm := rfl
@[simp] theorem State.setV_pm (s : State) (b : Bool) : (s.setV b).pm = s.pm := rfl
@[simp] theorem State.setV_params (s : State) (b : Bool) : (s.setV b).params = s.params := rfl
@[simp] theorem State.setV_inputs (s : State) (b : Bool) : (s.setV b).inputs = s.inputs := rfl
@[simp] theorem State.setV_inputsRead (s : State) (b : Bool) : (s.setV b).inputsRead = s.inputsRead := rfl
@[simp] theorem State.setV_outputs (s : State) (b : Bool) : (s.setV b).outputs = s.outputs := rfl

@[simp] theorem State.setCell_pc (s : State) (a : DataAddr) (u : Nibble) : (s.setCell a u).pc = s.pc := rfl
@[simp] theorem State.setCell_sp (s : State) (a : DataAddr) (u : Nibble) : (s.setCell a u).sp = s.sp := rfl
@[simp] theorem State.setCell_c (s : State) (a : DataAddr) (u : Nibble) : (s.setCell a u).c = s.c := rfl
@[simp] theorem State.setCell_z (s : State) (a : DataAddr) (u : Nibble) : (s.setCell a u).z = s.z := rfl
@[simp] theorem State.setCell_v (s : State) (a : DataAddr) (u : Nibble) : (s.setCell a u).v = s.v := rfl
@[simp] theorem State.setCell_dm (s : State) (a : DataAddr) (u : Nibble) : (s.setCell a u).dm = s.dm.write a.toNat u := rfl
@[simp] theorem State.setCell_pm (s : State) (a : DataAddr) (u : Nibble) : (s.setCell a u).pm = s.pm := rfl
@[simp] theorem State.setCell_params (s : State) (a : DataAddr) (u : Nibble) : (s.setCell a u).params = s.params := rfl
@[simp] theorem State.setCell_inputs (s : State) (a : DataAddr) (u : Nibble) : (s.setCell a u).inputs = s.inputs := rfl
@[simp] theorem State.setCell_inputsRead (s : State) (a : DataAddr) (u : Nibble) : (s.setCell a u).inputsRead = s.inputsRead := rfl
@[simp] theorem State.setCell_outputs (s : State) (a : DataAddr) (u : Nibble) : (s.setCell a u).outputs = s.outputs := rfl

@[simp] theorem State.emit_pc (s : State) (u : Nibble) : (s.emit u).pc = s.pc := rfl
@[simp] theorem State.emit_sp (s : State) (u : Nibble) : (s.emit u).sp = s.sp := rfl
@[simp] theorem State.emit_c (s : State) (u : Nibble) : (s.emit u).c = s.c := rfl
@[simp] theorem State.emit_z (s : State) (u : Nibble) : (s.emit u).z = s.z := rfl
@[simp] theorem State.emit_v (s : State) (u : Nibble) : (s.emit u).v = s.v := rfl
@[simp] theorem State.emit_dm (s : State) (u : Nibble) : (s.emit u).dm = s.dm := rfl
@[simp] theorem State.emit_pm (s : State) (u : Nibble) : (s.emit u).pm = s.pm := rfl
@[simp] theorem State.emit_params (s : State) (u : Nibble) : (s.emit u).params = s.params := rfl
@[simp] theorem State.emit_inputs (s : State) (u : Nibble) : (s.emit u).inputs = s.inputs := rfl
@[simp] theorem State.emit_inputsRead (s : State) (u : Nibble) : (s.emit u).inputsRead = s.inputsRead := rfl
@[simp] theorem State.emit_outputs (s : State) (u : Nibble) : (s.emit u).outputs = s.outputs ++ [u] := rfl

@[simp] theorem State.tookInput_pc (s : State) : (s.tookInput).pc = s.pc := rfl
@[simp] theorem State.tookInput_sp (s : State) : (s.tookInput).sp = s.sp := rfl
@[simp] theorem State.tookInput_c (s : State) : (s.tookInput).c = s.c := rfl
@[simp] theorem State.tookInput_z (s : State) : (s.tookInput).z = s.z := rfl
@[simp] theorem State.tookInput_v (s : State) : (s.tookInput).v = s.v := rfl
@[simp] theorem State.tookInput_dm (s : State) : (s.tookInput).dm = s.dm := rfl
@[simp] theorem State.tookInput_pm (s : State) : (s.tookInput).pm = s.pm := rfl
@[simp] theorem State.tookInput_params (s : State) : (s.tookInput).params = s.params := rfl
@[simp] theorem State.tookInput_inputs (s : State) : (s.tookInput).inputs = s.inputs.tail := rfl
@[simp] theorem State.tookInput_inputsRead (s : State) : (s.tookInput).inputsRead = s.inputsRead + 1 := rfl
@[simp] theorem State.tookInput_outputs (s : State) : (s.tookInput).outputs = s.outputs := rfl

@[simp] theorem State.afterFetch_pc (s : State) : (s.afterFetch).pc = s.pc + 1 := rfl
@[simp] theorem State.afterFetch_sp (s : State) : (s.afterFetch).sp = s.sp := rfl
@[simp] theorem State.afterFetch_c (s : State) : (s.afterFetch).c = s.c := rfl
@[simp] theorem State.afterFetch_z (s : State) : (s.afterFetch).z = s.z := rfl
@[simp] theorem State.afterFetch_v (s : State) : (s.afterFetch).v = s.v := rfl
@[simp] theorem State.afterFetch_dm (s : State) : (s.afterFetch).dm = s.dm := rfl
@[simp] theorem State.afterFetch_pm (s : State) : (s.afterFetch).pm = s.pm := rfl
@[simp] theorem State.afterFetch_params (s : State) : (s.afterFetch).params = s.params := rfl
@[simp] theorem State.afterFetch_inputs (s : State) : (s.afterFetch).inputs = s.inputs := rfl
@[simp] theorem State.afterFetch_inputsRead (s : State) : (s.afterFetch).inputsRead = s.inputsRead := rfl
@[simp] theorem State.afterFetch_outputs (s : State) : (s.afterFetch).outputs = s.outputs := rfl

@[simp] theorem State.placeWord_pc (s : State) (w : InstrWord) : (s.placeWord w).pc = s.pc := rfl
@[simp] theorem State.placeWord_sp (s : State) (w : InstrWord) : (s.placeWord w).sp = s.sp := rfl
@[simp] theorem State.placeWord_c (s : State) (w : InstrWord) : (s.placeWord w).c = s.c := rfl
@[simp] theorem State.placeWord_z (s : State) (w : InstrWord) : (s.placeWord w).z = s.z := rfl
@[simp] theorem State.placeWord_v (s : State) (w : InstrWord) : (s.placeWord w).v = s.v := rfl
@[simp] theorem State.placeWord_dm (s : State) (w : InstrWord) : (s.placeWord w).dm = s.dm := rfl
@[simp] theorem State.placeWord_pm (s : State) (w : InstrWord) : (s.placeWord w).pm = s.pm.write s.pc.toNat w := rfl
@[simp] theorem State.placeWord_params (s : State) (w : InstrWord) : (s.placeWord w).params = s.params := rfl
@[simp] theorem State.placeWord_inputs (s : State) (w : InstrWord) : (s.placeWord w).inputs = s.inputs := rfl
@[simp] theorem State.placeWord_inputsRead (s : State) (w : InstrWord) : (s.placeWord w).inputsRead = s.inputsRead := rfl
@[simp] theorem State.placeWord_outputs (s : State) (w : InstrWord) : (s.placeWord w).outputs = s.outputs := rfl

/-! The raw cell of an update that does not touch data memory. -/

@[simp] theorem State.setPc_cell (s : State) (t : ProgAddr) (d : DataAddr) : (s.setPc t).cell d = s.cell d := rfl
@[simp] theorem State.setSp_cell (s : State) (n : Nat) (d : DataAddr) : (s.setSp n).cell d = s.cell d := rfl
@[simp] theorem State.setC_cell (s : State) (b : Bool) (d : DataAddr) : (s.setC b).cell d = s.cell d := rfl
@[simp] theorem State.setZ_cell (s : State) (b : Bool) (d : DataAddr) : (s.setZ b).cell d = s.cell d := rfl
@[simp] theorem State.setV_cell (s : State) (b : Bool) (d : DataAddr) : (s.setV b).cell d = s.cell d := rfl
@[simp] theorem State.emit_cell (s : State) (u : Nibble) (d : DataAddr) : (s.emit u).cell d = s.cell d := rfl
@[simp] theorem State.tookInput_cell (s : State) (d : DataAddr) : (s.tookInput).cell d = s.cell d := rfl
@[simp] theorem State.afterFetch_cell (s : State) (d : DataAddr) : (s.afterFetch).cell d = s.cell d := rfl
@[simp] theorem State.placeWord_cell (s : State) (w : InstrWord) (d : DataAddr) : (s.placeWord w).cell d = s.cell d := rfl

end Sys2Proof.Machine
end

