-- ==== Sys2Proof/Laws/Ops.lean ====
section
/-!
SUPPORT. What each shared operation does, said once: the fields it leaves alone, the cell it writes, when it stops.
-/
namespace Sys2Proof.Machine

open Sys2Proof

/-! Cells. -/

/-- A raw store, read back at any cell. -/
theorem State.setCell_cell (s : State) (a d : DataAddr) (v : Nibble) :
    (s.setCell a v).cell d = if d = a then v else s.cell d := by
  simp only [State.cell, State.setCell_dm, Memory.read_write_eq, BitVec.toNat_inj]

/-- A write past its check, read back raw at any cell. -/
theorem State.writeCell_cell (s : State) (a d : DataAddr) (v : Nibble) :
    (s.writeCell a v).cell d = if d = a then v else s.cell d := by
  unfold State.writeCell
  split <;> simp [State.setCell_cell]

@[simp] theorem State.writeCell_dm (s : State) (a : DataAddr) (v : Nibble) :
    (s.writeCell a v).dm = s.dm.write a.toNat v := by
  unfold State.writeCell
  split <;> rfl

/-- The events of a write: one where the cell is the active OUT location and IO_MODEL is external (R45). -/
theorem State.writeCell_outputs (s : State) (a : DataAddr) (v : Nibble) :
    (s.writeCell a v).outputs =
      if a = s.outAddr ∧ s.params.ioModel = .external then s.outputs ++ [v] else s.outputs := by
  unfold State.writeCell
  split <;> rfl

/-- A write changes data memory and the events, and nothing else. -/
theorem State.writeCell_frame (s : State) (a : DataAddr) (v : Nibble) :
    (s.writeCell a v).pc = s.pc ∧ (s.writeCell a v).sp = s.sp ∧ (s.writeCell a v).c = s.c ∧ (s.writeCell a v).z = s.z
      ∧ (s.writeCell a v).v = s.v ∧ (s.writeCell a v).pm = s.pm ∧ (s.writeCell a v).params = s.params
      ∧ (s.writeCell a v).inputs = s.inputs ∧ (s.writeCell a v).inputsRead = s.inputsRead := by
  unfold State.writeCell
  split <;> simp

@[simp] theorem State.writeCell_pc (s : State) (a : DataAddr) (u : Nibble) : (s.writeCell a u).pc = s.pc :=
  (s.writeCell_frame a u).1
@[simp] theorem State.writeCell_sp (s : State) (a : DataAddr) (u : Nibble) : (s.writeCell a u).sp = s.sp :=
  (s.writeCell_frame a u).2.1
@[simp] theorem State.writeCell_c (s : State) (a : DataAddr) (u : Nibble) : (s.writeCell a u).c = s.c :=
  (s.writeCell_frame a u).2.2.1
@[simp] theorem State.writeCell_z (s : State) (a : DataAddr) (u : Nibble) : (s.writeCell a u).z = s.z :=
  (s.writeCell_frame a u).2.2.2.1
@[simp] theorem State.writeCell_v (s : State) (a : DataAddr) (u : Nibble) : (s.writeCell a u).v = s.v :=
  (s.writeCell_frame a u).2.2.2.2.1
@[simp] theorem State.writeCell_pm (s : State) (a : DataAddr) (u : Nibble) : (s.writeCell a u).pm = s.pm :=
  (s.writeCell_frame a u).2.2.2.2.2.1
@[simp] theorem State.writeCell_params (s : State) (a : DataAddr) (u : Nibble) : (s.writeCell a u).params = s.params :=
  (s.writeCell_frame a u).2.2.2.2.2.2.1
@[simp] theorem State.writeCell_inputs (s : State) (a : DataAddr) (u : Nibble) : (s.writeCell a u).inputs = s.inputs :=
  (s.writeCell_frame a u).2.2.2.2.2.2.2.1
@[simp] theorem State.writeCell_inputsRead (s : State) (a : DataAddr) (u : Nibble) :
    (s.writeCell a u).inputsRead = s.inputsRead :=
  (s.writeCell_frame a u).2.2.2.2.2.2.2.2

/-! Reads. -/

/-- Reading changes the input supply and its count, and nothing else. -/
theorem State.afterReads_eq (s : State) (as : List DataAddr) : s.afterReads as = s ∨ s.afterReads as = s.tookInput := by
  unfold State.afterReads
  split
  · exact .inr rfl
  · exact .inl rfl

@[simp] theorem State.afterReads_pc (s : State) (as : List DataAddr) : (s.afterReads as).pc = s.pc := by
  rcases s.afterReads_eq as with h | h <;> simp [h]
@[simp] theorem State.afterReads_sp (s : State) (as : List DataAddr) : (s.afterReads as).sp = s.sp := by
  rcases s.afterReads_eq as with h | h <;> simp [h]
@[simp] theorem State.afterReads_c (s : State) (as : List DataAddr) : (s.afterReads as).c = s.c := by
  rcases s.afterReads_eq as with h | h <;> simp [h]
@[simp] theorem State.afterReads_z (s : State) (as : List DataAddr) : (s.afterReads as).z = s.z := by
  rcases s.afterReads_eq as with h | h <;> simp [h]
@[simp] theorem State.afterReads_v (s : State) (as : List DataAddr) : (s.afterReads as).v = s.v := by
  rcases s.afterReads_eq as with h | h <;> simp [h]
@[simp] theorem State.afterReads_dm (s : State) (as : List DataAddr) : (s.afterReads as).dm = s.dm := by
  rcases s.afterReads_eq as with h | h <;> simp [h]
@[simp] theorem State.afterReads_pm (s : State) (as : List DataAddr) : (s.afterReads as).pm = s.pm := by
  rcases s.afterReads_eq as with h | h <;> simp [h]
@[simp] theorem State.afterReads_params (s : State) (as : List DataAddr) : (s.afterReads as).params = s.params := by
  rcases s.afterReads_eq as with h | h <;> simp [h]
@[simp] theorem State.afterReads_outputs (s : State) (as : List DataAddr) : (s.afterReads as).outputs = s.outputs := by
  rcases s.afterReads_eq as with h | h <;> simp [h]
@[simp] theorem State.afterReads_cell (s : State) (as : List DataAddr) (d : DataAddr) :
    (s.afterReads as).cell d = s.cell d := by
  simp [State.cell]

/-! Ends of instructions. -/

/-- `finish` answers a next state exactly where there is no fault. -/
@[simp] theorem finish_eq_next (f : Option Fault) (s t : State) : finish f s = .next t ↔ f = none ∧ s = t := by
  cases f <;> simp [finish]

/-- `finish` faults exactly with the fault it is given. -/
@[simp] theorem finish_eq_fault (f : Option Fault) (s : State) (e : Fault) : finish f s = .fault e ↔ f = some e := by
  cases f <;> simp [finish]

/-- `finish` never refuses. -/
@[simp] theorem finish_ne_refused (f : Option Fault) (s : State) (r : Refusal) : finish f s ≠ .refused r := by
  cases f <;> simp [finish]

/-- Where `x[i] <- v` ends an instruction with a next state, it is the write with its PC effect. -/
theorem endWithReg_eq_next (s t : State) (i : Reg) (v : Nibble) (k : PcClass) :
    endWithReg s i v k = .next t ↔ s.pcWriteFault (regCell i) k = none ∧ s.putCell (regCell i) v k = t := by
  simp [endWithReg]

/-- Where a store ends an instruction with a next state, no check stopped it, and it is the write with its PC effect. -/
theorem endWithStore_eq_next (s t : State) (a : DataAddr) (v : Nibble) :
    endWithStore s a v = .next t ↔
      (s.sfrFault a .write = none ∧ s.pcWriteFault a .other = none) ∧ s.putCell a v .other = t := by
  simp [endWithStore]

/-! Jump and call. -/

/-- A write to a cell other than JSR and PCL starts nothing and raises nothing (R143). -/
theorem State.pcWrite_elsewhere (s : State) {a : DataAddr} (k : PcClass) (h12 : a ≠ jsrCell) (h13 : a ≠ pclCell) :
    s.triggers a k = false ∧ s.pcWriteFault a k = none ∧ s.pcWriteEffect a k = s := by
  have h : s.triggers a k = false := by simp [State.triggers, h12, h13]
  exact ⟨h, by simp [State.pcWriteFault, h, h12, h13], by simp [State.pcWriteEffect, h]⟩

/-- What `PcWriteEffect` can do: nothing, a jump after a write of PCL, or a call after a write of JSR (R143). -/
theorem State.pcWriteEffect_cases (s : State) (a : DataAddr) (k : PcClass) :
    s.pcWriteEffect a k = s ∨ (a = pclCell ∧ s.pcWriteEffect a k = s.jump)
      ∨ (a = jsrCell ∧ s.triggers a k = true ∧ s.pcWriteEffect a k = s.call) := by
  unfold State.pcWriteEffect
  split
  · rename_i h
    have h2 : a = jsrCell ∨ a = pclCell := by
      simp only [State.triggers, decide_eq_true_eq] at h
      exact h.1
    split
    · exact .inr (.inr ⟨‹_›, h, rfl⟩)
    · exact .inr (.inl ⟨h2.resolve_left ‹_›, rfl⟩)
  · exact .inl rfl

/-- A call that raises no fault has room on the stack (R142). -/
theorem State.callFault_eq_none (s : State) : s.callFault = none ↔ s.sp < s.params.stackDepth := by
  unfold State.callFault
  split <;> simp <;> omega

/-- A jump changes `pc` alone. -/
theorem State.jump_eq (s : State) : ∃ t, s.jump = s.setPc t := ⟨_, rfl⟩

/-- A call changes `pc`, SP and the three cells of the level it pushes to. -/
theorem State.call_frame (s : State) :
    s.call.sp = s.sp + 1 ∧ s.call.c = s.c ∧ s.call.z = s.z ∧ s.call.v = s.v ∧ s.call.pm = s.pm
      ∧ s.call.params = s.params ∧ s.call.inputs = s.inputs ∧ s.call.inputsRead = s.inputsRead
      ∧ s.call.outputs = s.outputs ∧ ∀ d, ¬ inStackLevel s.sp d → s.call.cell d = s.cell d := by
  refine ⟨rfl, rfl, rfl, rfl, rfl, rfl, rfl, rfl, rfl, fun d hd => ?_⟩
  simp only [inStackLevel, not_or] at hd
  simp [State.call, State.pushPc, State.setCell_cell, hd]

/-! What a check of a write depends on. -/

/-- Which writes start a transfer depends on the parameters alone. -/
theorem State.triggers_congr {s t : State} (a : DataAddr) (k : PcClass) (h : t.params = s.params) :
    t.triggers a k = s.triggers a k := by
  simp [State.triggers, h]

/-- The fault of a write depends on `pc`, SP and the parameters alone, so it is known before the write (R224). -/
theorem State.pcWriteFault_congr {s t : State} (a : DataAddr) (k : PcClass) (hpc : t.pc = s.pc) (hsp : t.sp = s.sp)
    (h : t.params = s.params) : t.pcWriteFault a k = s.pcWriteFault a k := by
  simp [State.pcWriteFault, State.triggers_congr a k h, State.callFault, State.instrAddr, hpc, hsp, h]

/-- The check of page 15 depends on `pc` and the parameters alone. -/
theorem State.sfrFault_congr {s t : State} (a : DataAddr) (k : Access) (hpc : t.pc = s.pc) (h : t.params = s.params) :
    t.sfrFault a k = s.sfrFault a k := by
  simp [State.sfrFault, State.instrAddr, hpc, h]

/-- `x[i] <- v` from any state with the `pc`, SP and parameters of one in which the write raises no fault. -/
theorem endWithReg_next {s t : State} {i : Reg} {k : PcClass} (h : s.pcWriteFault (regCell i) k = none)
    (hpc : t.pc = s.pc) (hsp : t.sp = s.sp) (hp : t.params = s.params) (v : Nibble) :
    endWithReg t i v k = .next (t.putCell (regCell i) v k) := by
  rw [endWithReg_eq_next, State.pcWriteFault_congr _ _ hpc hsp hp]
  exact ⟨h, rfl⟩

/-- A store from any state with the `pc`, SP and parameters of one in which it raises no fault. -/
theorem endWithStore_next {s t : State} {a : DataAddr} (hs : s.sfrFault a .write = none)
    (h : s.pcWriteFault a .other = none) (hpc : t.pc = s.pc) (hsp : t.sp = s.sp) (hp : t.params = s.params)
    (v : Nibble) : endWithStore t a v = .next (t.putCell a v .other) := by
  rw [endWithStore_eq_next, State.pcWriteFault_congr _ _ hpc hsp hp, State.sfrFault_congr _ _ hpc hp]
  exact ⟨⟨hs, h⟩, rfl⟩

/-- A named write raises no fault where, on JSR, the stack has room. -/
theorem State.named_no_fault {s : State} {i : Reg} (h : i = 12 → s.sp < s.params.stackDepth) :
    s.pcWriteFault (regCell i) .named = none := by
  have hj : regCell i = jsrCell ↔ i = 12 := by clear h; revert i; decide
  by_cases ht : s.triggers (regCell i) .named = true
  · simp only [State.pcWriteFault, ht, if_true]
    split
    · exact s.callFault_eq_none.2 (h (hj.1 ‹_›))
    · rfl
  · have h' : ¬ (regCell i = jsrCell ∨ regCell i = pclCell) := by simpa [State.triggers] using ht
    have : ¬ ((regCell i = jsrCell ∨ regCell i = pclCell) ∧ s.params.otherPcWrites = .refuse) := fun e => h' e.1
    simp only [State.pcWriteFault, ht, this, if_false]
    rfl

/-- Distinct registers have distinct cells. -/
theorem regCell_inj {i j : Reg} : regCell i = regCell j ↔ i = j := by revert i j; decide

/-! Reads of cells that are never the active IN location. -/

/-- A cell other than 0x0B and 0xFB is read raw (R44). -/
theorem State.readsInput_elsewhere (s : State) {a : DataAddr} (h : a ≠ 0x0B) (h' : a ≠ 0xFB) : s.readsInput a = false := by
  have : a ≠ s.inAddr := by
    unfold State.inAddr
    split
    · exact h'
    · exact h
  exact decide_eq_false fun e => this e.1

/-- The active OUT location is 0x0A or 0xFA (R24). -/
theorem State.outAddr_cases (s : State) : s.outAddr = 0x0A ∨ s.outAddr = 0xFA := by
  unfold State.outAddr
  split
  · exact .inr rfl
  · exact .inl rfl

/-- A write to a cell that is never an OUT location is the raw store (R45). -/
theorem State.writeCell_elsewhere (s : State) {a : DataAddr} (v : Nibble) (h : a ≠ 0x0A) (h' : a ≠ 0xFA) :
    s.writeCell a v = s.setCell a v := by
  have : a ≠ s.outAddr := by rcases s.outAddr_cases with e | e <;> rw [e] <;> assumption
  simp [State.writeCell, this]

/-- R0 is read raw. -/
@[simp] theorem State.reg_zero (s : State) : s.reg 0#4 = s.cell 0#8 := by
  have : s.readsInput (regCell 0#4) = false := s.readsInput_elsewhere (by decide) (by decide)
  simp only [State.reg, State.readCell, this]
  rfl

/-! What a write and an exchange change. -/

/-- What a write with its PC effect can change: the cell written; where it calls, SP and the cells of the level pushed to; `pc`
where it calls or jumps; the events. -/
theorem State.putCell_frame (s : State) (a : DataAddr) (u : Nibble) (k : PcClass) :
    ((s.putCell a u k).c = s.c ∧ (s.putCell a u k).z = s.z ∧ (s.putCell a u k).v = s.v ∧ (s.putCell a u k).pm = s.pm
      ∧ (s.putCell a u k).params = s.params ∧ (s.putCell a u k).inputs = s.inputs
      ∧ (s.putCell a u k).inputsRead = s.inputsRead ∧ (s.putCell a u k).outputs = (s.writeCell a u).outputs)
    ∧ ((s.putCell a u k).sp = s.sp ∨ (s.putCell a u k).sp = s.sp + 1 ∧ a = jsrCell ∧ s.triggers a k = true)
    ∧ (s.triggers a k = false → (s.putCell a u k).pc = s.pc)
    ∧ (∀ d, d ≠ a → ((s.putCell a u k).sp = s.sp ∨ ¬ inStackLevel s.sp d) → (s.putCell a u k).cell d = s.cell d) := by
  unfold State.putCell
  have hc : ∀ d, d ≠ a → (s.writeCell a u).cell d = s.cell d := fun d hd => by rw [State.writeCell_cell, if_neg hd]
  have ht := (State.triggers_congr (s := s) (t := s.writeCell a u) a k (by simp))
  rcases (s.writeCell a u).pcWriteEffect_cases a k with e | ⟨-, e⟩ | ⟨ha, h, e⟩
  · rw [e]; exact ⟨by simp, .inl (by simp), fun _ => by simp, fun d hd _ => hc d hd⟩
  · refine ⟨by simp [e, State.jump], .inl (by simp [e, State.jump]), fun h => ?_, fun d hd _ => by rw [e]; exact hc d hd⟩
    rw [State.pcWriteEffect, ht, h]; simp
  · obtain ⟨h1, h2, h3, h4, h5, h6, h7, h8, h9, h10⟩ := (s.writeCell a u).call_frame
    rw [e]
    refine ⟨by simp [h2, h3, h4, h5, h6, h7, h8, h9], .inr ⟨by simp [h1], ha, by rw [← ht, h]⟩, fun h' => ?_, fun d hd hs => ?_⟩
    · rw [ht, h'] at h; cases h
    · rw [h10 d, hc d hd]
      rcases hs with hs | hs
      · rw [h1] at hs; simp at hs
      · simpa using hs

/-- A write with its PC effect keeps data memory in canonical form. -/
theorem State.putCell_wf {s : State} (a : DataAddr) (u : Nibble) (k : PcClass) (h : s.dm.wf 256) :
    (s.putCell a u k).dm.wf 256 := by
  have hw : ∀ (t : State) (d : DataAddr) (n : Nibble), t.dm.wf 256 → (t.setCell d n).dm.wf 256 := fun t d n ht => by
    rw [State.setCell_dm]; exact Memory.write_wf n d.isLt ht
  have h1 : (s.writeCell a u).dm.wf 256 := by rw [State.writeCell_dm]; exact Memory.write_wf u a.isLt h
  unfold State.putCell
  rcases (s.writeCell a u).pcWriteEffect_cases a k with e | ⟨-, e⟩ | ⟨-, -, e⟩ <;> rw [e]
  · exact h1
  · exact h1
  · exact hw _ _ _ (hw _ _ _ (hw _ _ _ h1))

/-- A write whose check passes leaves SP within the stack. -/
theorem State.putCell_sp_le {s t : State} (a : DataAddr) (u : Nibble) (k : PcClass) (hsp : t.sp = s.sp)
    (hp : t.params = s.params) (hle : s.sp ≤ s.params.stackDepth) (h : s.pcWriteFault a k = none) :
    (t.putCell a u k).sp ≤ s.params.stackDepth := by
  rcases (t.putCell_frame a u k).2.1 with e | ⟨e, ha, ht⟩
  · rw [e, hsp]; exact hle
  · rw [State.triggers_congr a k hp] at ht
    rw [State.pcWriteFault, if_pos ht, if_pos ha, State.callFault_eq_none] at h
    rw [e, hsp]; omega

/-- Exchanges change data memory, the events and the input supply, and nothing else. -/
theorem State.exchangeFirst_frame (s : State) (n : Nat) :
    (s.exchangeFirst n).pc = s.pc ∧ (s.exchangeFirst n).sp = s.sp ∧ (s.exchangeFirst n).c = s.c ∧ (s.exchangeFirst n).z = s.z
      ∧ (s.exchangeFirst n).v = s.v ∧ (s.exchangeFirst n).pm = s.pm ∧ (s.exchangeFirst n).params = s.params
      ∧ (s.dm.wf 256 → (s.exchangeFirst n).dm.wf 256) := by
  induction n with
  | zero => exact ⟨rfl, rfl, rfl, rfl, rfl, rfl, rfl, id⟩
  | succ n ih =>
    obtain ⟨h1, h2, h3, h4, h5, h6, h7, h8⟩ := ih
    refine ⟨by simp [State.exchangeFirst, State.exchange, h1], by simp [State.exchangeFirst, State.exchange, h2],
      by simp [State.exchangeFirst, State.exchange, h3], by simp [State.exchangeFirst, State.exchange, h4],
      by simp [State.exchangeFirst, State.exchange, h5], by simp [State.exchangeFirst, State.exchange, h6],
      by simp [State.exchangeFirst, State.exchange, h7], fun h => ?_⟩
    simp only [State.exchangeFirst, State.exchange, State.writeCell_dm, State.afterReads_dm]
    exact Memory.write_wf _ (BitVec.isLt _) (Memory.write_wf _ (BitVec.isLt _) (h8 h))

end Sys2Proof.Machine
end

