-- ==== Sys2Proof/Laws/PerInstr.lean ====
section
/-!
SUPPORT. The family TableBits: the fixed bits of every encoded instruction are those of its row of spec/opcode_table.json, its
`match` under its `mask`. Both columns are copied from the table.
-/
namespace Sys2Proof.Laws.TableBits

open Sys2Proof

/-- The `mask` and `match` of an instruction's row of the opcode table. -/
def row : Instr → InstrWord × InstrWord
  | .addRxRy _ _ => (0xF00, 0x100)
  | .adcRxRy _ _ => (0xF00, 0x200)
  | .subRxRy _ _ => (0xF00, 0x300)
  | .sbbRxRy _ _ => (0xF00, 0x400)
  | .orRxRy _ _ => (0xF00, 0x500)
  | .andRxRy _ _ => (0xF00, 0x600)
  | .xorRxRy _ _ => (0xF00, 0x700)
  | .movRxRy _ _ => (0xF00, 0x800)
  | .movRxN _ _ => (0xF00, 0x900)
  | .movXyR0 _ _ => (0xF00, 0xA00)
  | .movR0Xy _ _ => (0xF00, 0xB00)
  | .movNnR0 _ => (0xF00, 0xC00)
  | .movR0Nn _ => (0xF00, 0xD00)
  | .movPcNn _ => (0xF00, 0xE00)
  | .jrNn _ => (0xF00, 0xF00)
  | .cpR0N _ => (0xFF0, 0x000)
  | .addR0N _ => (0xFF0, 0x010)
  | .incRy _ => (0xFF0, 0x020)
  | .decRy _ => (0xFF0, 0x030)
  | .dszRy _ => (0xFF0, 0x040)
  | .orR0N _ => (0xFF0, 0x050)
  | .andR0N _ => (0xFF0, 0x060)
  | .xorR0N _ => (0xFF0, 0x070)
  | .exrN _ => (0xFF0, 0x080)
  | .bitRgM _ _ => (0xFF0, 0x090)
  | .bsetRgM _ _ => (0xFF0, 0x0A0)
  | .bclrRgM _ _ => (0xFF0, 0x0B0)
  | .btgRgM _ _ => (0xFF0, 0x0C0)
  | .rrcRy _ => (0xFF0, 0x0D0)
  | .retR0N _ => (0xFF0, 0x0E0)
  | .skipFM _ _ => (0xFF0, 0x0F0)

/-- The encoded word has its row's fixed bits (R65, R66). -/
def Statement (i : Instr) : Prop := encode i &&& (row i).1 = (row i).2

/-- The bits of a word of formats RR and RN. -/
theorem getLsbD_wordXY (op x y : BitVec 4) (i : Nat) : (wordXY op x y).getLsbD i =
    if i < 4 then y.getLsbD i else if i - 4 < 4 then x.getLsbD (i - 4) else op.getLsbD (i - 4 - 4) := by
  show (op ++ x ++ y : BitVec (4 + 4 + 4)).getLsbD i = _
  rw [BitVec.getLsbD_append, BitVec.getLsbD_append]

/-- The bits of a word of format NN. -/
theorem getLsbD_wordNN (op : BitVec 4) (nn : BitVec 8) (i : Nat) : (wordNN op nn).getLsbD i =
    if i < 8 then nn.getLsbD i else op.getLsbD (i - 8) := by
  show (op ++ nn : BitVec (4 + 8)).getLsbD i = _
  rw [BitVec.getLsbD_append]

/-- The bits of a word of formats 0GM and 0FM. -/
theorem getLsbD_wordGM (sub : BitVec 4) (g m : BitVec 2) (i : Nat) : (wordGM sub g m).getLsbD i =
    if i < 2 then m.getLsbD i else if i - 2 < 2 then g.getLsbD (i - 2)
      else if i - 2 - 2 < 4 then sub.getLsbD (i - 2 - 2) else (0#4).getLsbD (i - 2 - 2 - 4) := by
  show (0#4 ++ sub ++ g ++ m : BitVec (4 + 4 + 2 + 2)).getLsbD i = _
  rw [BitVec.getLsbD_append, BitVec.getLsbD_append, BitVec.getLsbD_append]

/-- The opcode bits of formats RR and RN. -/
theorem mask_wordXY (op x y : BitVec 4) : wordXY op x y &&& 0xF00 = wordXY op 0 0 := by
  apply BitVec.eq_of_getLsbD_eq
  intro i hi
  rw [BitVec.getLsbD_and, getLsbD_wordXY, getLsbD_wordXY]
  interval_cases i <;> simp

/-- The opcode bits of format NN. -/
theorem mask_wordNN (op : BitVec 4) (nn : BitVec 8) : wordNN op nn &&& 0xF00 = wordNN op 0 := by
  apply BitVec.eq_of_getLsbD_eq
  intro i hi
  rw [BitVec.getLsbD_and, getLsbD_wordNN, getLsbD_wordNN]
  interval_cases i <;> simp

/-- The opcode bits of formats 0N and 0Y. -/
theorem mask_wordSub (sub y : BitVec 4) : wordSub sub y &&& 0xFF0 = wordSub sub 0 := by
  apply BitVec.eq_of_getLsbD_eq
  intro i hi
  rw [BitVec.getLsbD_and, wordSub_eq, wordSub_eq, getLsbD_wordXY, getLsbD_wordXY]
  interval_cases i <;> simp

/-- The opcode bits of formats 0GM and 0FM. -/
theorem mask_wordGM (sub : BitVec 4) (g m : BitVec 2) : wordGM sub g m &&& 0xFF0 = wordGM sub 0 0 := by
  apply BitVec.eq_of_getLsbD_eq
  intro i hi
  rw [BitVec.getLsbD_and, getLsbD_wordGM, getLsbD_wordGM]
  interval_cases i <;> simp

theorem addRxRy (x y : Reg) : Statement (.addRxRy x y) := mask_wordXY _ _ _
theorem adcRxRy (x y : Reg) : Statement (.adcRxRy x y) := mask_wordXY _ _ _
theorem subRxRy (x y : Reg) : Statement (.subRxRy x y) := mask_wordXY _ _ _
theorem sbbRxRy (x y : Reg) : Statement (.sbbRxRy x y) := mask_wordXY _ _ _
theorem orRxRy (x y : Reg) : Statement (.orRxRy x y) := mask_wordXY _ _ _
theorem andRxRy (x y : Reg) : Statement (.andRxRy x y) := mask_wordXY _ _ _
theorem xorRxRy (x y : Reg) : Statement (.xorRxRy x y) := mask_wordXY _ _ _
theorem movRxRy (x y : Reg) : Statement (.movRxRy x y) := mask_wordXY _ _ _
theorem movRxN (x : Reg) (n : Nibble) : Statement (.movRxN x n) := mask_wordXY _ _ _
theorem movXyR0 (x y : Reg) : Statement (.movXyR0 x y) := mask_wordXY _ _ _
theorem movR0Xy (x y : Reg) : Statement (.movR0Xy x y) := mask_wordXY _ _ _
theorem movNnR0 (nn : BitVec 8) : Statement (.movNnR0 nn) := mask_wordNN _ _
theorem movR0Nn (nn : BitVec 8) : Statement (.movR0Nn nn) := mask_wordNN _ _
theorem movPcNn (nn : BitVec 8) : Statement (.movPcNn nn) := mask_wordNN _ _
theorem jrNn (nn : BitVec 8) : Statement (.jrNn nn) := mask_wordNN _ _
theorem cpR0N (n : Nibble) : Statement (.cpR0N n) := mask_wordSub _ _
theorem addR0N (n : Nibble) : Statement (.addR0N n) := mask_wordSub _ _
theorem incRy (y : Reg) : Statement (.incRy y) := mask_wordSub _ _
theorem decRy (y : Reg) : Statement (.decRy y) := mask_wordSub _ _
theorem dszRy (y : Reg) : Statement (.dszRy y) := mask_wordSub _ _
theorem orR0N (n : Nibble) : Statement (.orR0N n) := mask_wordSub _ _
theorem andR0N (n : Nibble) : Statement (.andR0N n) := mask_wordSub _ _
theorem xorR0N (n : Nibble) : Statement (.xorR0N n) := mask_wordSub _ _
theorem exrN (n : Nibble) : Statement (.exrN n) := mask_wordSub _ _
theorem bitRgM (g : BitReg) (m : BitVec 2) : Statement (.bitRgM g m) := mask_wordGM _ _ _
theorem bsetRgM (g : BitReg) (m : BitVec 2) : Statement (.bsetRgM g m) := mask_wordGM _ _ _
theorem bclrRgM (g : BitReg) (m : BitVec 2) : Statement (.bclrRgM g m) := mask_wordGM _ _ _
theorem btgRgM (g : BitReg) (m : BitVec 2) : Statement (.btgRgM g m) := mask_wordGM _ _ _
theorem rrcRy (y : Reg) : Statement (.rrcRy y) := mask_wordSub _ _
theorem retR0N (n : Nibble) : Statement (.retR0N n) := mask_wordSub _ _
theorem skipFM (f : Cond) (m : BitVec 2) : Statement (.skipFM f m) := mask_wordGM _ _ _

end Sys2Proof.Laws.TableBits
end

