-- ==== Sys2Proof/Tests/Slice0.lean ====
section
/-!
SUPPORT. The model's own tests: words written out from the spec's encodings, the worked examples and derived vectors of
spec/95_test_vectors.md (S<n> and V-<name>-<n>), ill-formed statements, and a state that meets the hypotheses of each statement.
Expected results are the spec's, never the model's.
-/
namespace Sys2Proof.Tests

open Sys2Proof Sys2Proof.Machine

/-! Decoding. The words are the source's own, in its binary (95_test_vectors.md section 1, page by page). -/

/-- S1, S2, S3, S5, S7, S8, S9. -/
theorem test_decode_two_register_words :
    decode 0b000100100000 = .addRxRy 2 0
      ∧ decode 0b001000010111 = .adcRxRy 1 7
      ∧ decode 0b001101100010 = .subRxRy 6 2
      ∧ decode 0b010001010011 = .sbbRxRy 5 3
      ∧ decode 0b010100000111 = .orRxRy 0 7
      ∧ decode 0b011010101011 = .andRxRy 10 11
      ∧ decode 0b011110000011 = .xorRxRy 8 3 := by decide

/-- S1, S2, S3, S5, S7, S8, S9, the other way. -/
theorem test_encode_two_register_words :
    encode (.addRxRy 2 0) = 0b000100100000
      ∧ encode (.adcRxRy 1 7) = 0b001000010111
      ∧ encode (.subRxRy 6 2) = 0b001101100010
      ∧ encode (.sbbRxRy 5 3) = 0b010001010011
      ∧ encode (.orRxRy 0 7) = 0b010100000111
      ∧ encode (.andRxRy 10 11) = 0b011010101011
      ∧ encode (.xorRxRy 8 3) = 0b011110000011 := by decide

/-- S10 to S16. -/
theorem test_decode_mov_words :
    decode 0b100001100101 = .movRxRy 6 5
      ∧ decode 0b100110010111 = .movRxN 9 7
      ∧ decode 0b101010010100 = .movXyR0 9 4
      ∧ decode 0b101101000111 = .movR0Xy 4 7
      ∧ decode 0b110000011001 = .movNnR0 0x19
      ∧ decode 0b110111100010 = .movR0Nn 0xE2
      ∧ decode 0b111000110001 = .movPcNn 0x31 := by decide

/-- S10 to S16, the other way. -/
theorem test_encode_mov_words :
    encode (.movRxRy 6 5) = 0b100001100101
      ∧ encode (.movRxN 9 7) = 0b100110010111
      ∧ encode (.movXyR0 9 4) = 0b101010010100
      ∧ encode (.movR0Xy 4 7) = 0b101101000111
      ∧ encode (.movNnR0 0x19) = 0b110000011001
      ∧ encode (.movR0Nn 0xE2) = 0b110111100010
      ∧ encode (.movPcNn 0x31) = 0b111000110001 := by decide

/-- S17, S36, S37, S38. -/
theorem test_decode_control_words :
    decode 0b111111111101 = .jrNn 0xFD
      ∧ decode 0b000011010100 = .rrcRy 4
      ∧ decode 0b000011100100 = .retR0N 4
      ∧ decode 0b000011110110 = .skipFM .nc 2 := by decide

/-- S17, S36, S37, S38, the other way. -/
theorem test_encode_control_words :
    encode (.jrNn 0xFD) = 0b111111111101
      ∧ encode (.rrcRy 4) = 0b000011010100
      ∧ encode (.retR0N 4) = 0b000011100100
      ∧ encode (.skipFM .nc 2) = 0b000011110110 := by decide

/-- S19 to S26. -/
theorem test_decode_r0_literal_words :
    decode 0b000000000101 = .cpR0N 5
      ∧ decode 0b000000011110 = .addR0N 14
      ∧ decode 0b000000100011 = .incRy 3
      ∧ decode 0b000000111000 = .decRy 8
      ∧ decode 0b000001000011 = .dszRy 3
      ∧ decode 0b000001010110 = .orR0N 6
      ∧ decode 0b000001101010 = .andR0N 10
      ∧ decode 0b000001110011 = .xorR0N 3 := by decide

/-- S19 to S26, the other way. -/
theorem test_encode_r0_literal_words :
    encode (.cpR0N 5) = 0b000000000101
      ∧ encode (.addR0N 14) = 0b000000011110
      ∧ encode (.incRy 3) = 0b000000100011
      ∧ encode (.decRy 8) = 0b000000111000
      ∧ encode (.dszRy 3) = 0b000001000011
      ∧ encode (.orR0N 6) = 0b000001010110
      ∧ encode (.andR0N 10) = 0b000001101010
      ∧ encode (.xorR0N 3) = 0b000001110011 := by decide

/-- S27 to S30, S32, S35. -/
theorem test_decode_exr_and_bit_words :
    decode 0b000010001010 = .exrN 10
      ∧ decode 0b000010011011 = .bitRgM .r2 3
      ∧ decode 0b000010011100 = .bitRgM .rs 0
      ∧ decode 0b000010100110 = .bsetRgM .r1 2
      ∧ decode 0b000010110001 = .bclrRgM .r0 1
      ∧ decode 0b000011001111 = .btgRgM .rs 3 := by decide

/-- S27 to S30, S32, S35, the other way. -/
theorem test_encode_exr_and_bit_words :
    encode (.exrN 10) = 0b000010001010
      ∧ encode (.bitRgM .r2 3) = 0b000010011011
      ∧ encode (.bitRgM .rs 0) = 0b000010011100
      ∧ encode (.bsetRgM .r1 2) = 0b000010100110
      ∧ encode (.bclrRgM .r0 1) = 0b000010110001
      ∧ encode (.btgRgM .rs 3) = 0b000011001111 := by decide

/-- The literals 0 that stand for 16 and 4 are kept as 0 in the fields (R63). -/
theorem test_decode_zero_counts : decode 0x080 = .exrN 0 ∧ decode 0x0F4 = .skipFM .nc 0 := by decide

/-- R60: a number with a bit above bit 11 is no instruction word. -/
theorem test_decode_refuses_13_bits :
    decodeNat 0xFFF = .ok (.jrNn 0xFF) ∧ decodeNat 0x1000 = .error (.widerThanTwelveBits 0x1000)
      ∧ decodeTableWord 12 0x1000 = none := by decide

/-! Statements of the assembler (R70 to R76): one ill-formed statement for each check. -/

/-- R71: a register number over 15, in each operand that takes a register. -/
theorem test_wf_register_number :
    Stmt.wf ⟨.adc, [.reg 15, .reg 15]⟩ = true ∧ Stmt.wf ⟨.adc, [.reg 16, .reg 0]⟩ = false
      ∧ Stmt.wf ⟨.adc, [.reg 0, .reg 16]⟩ = false ∧ Stmt.wf ⟨.inc, [.reg 16]⟩ = false
      ∧ Stmt.wf ⟨.mov, [.atPair 16 0, .reg 0]⟩ = false ∧ Stmt.wf ⟨.mov, [.reg 0, .atPair 0 16]⟩ = false := by decide

/-- R71: a literal N outside 0 to 15. -/
theorem test_wf_literal :
    Stmt.wf ⟨.cp, [.reg 0, .num 15]⟩ = true ∧ Stmt.wf ⟨.cp, [.reg 0, .num 16]⟩ = false
      ∧ Stmt.wf ⟨.exr, [.num (-1)]⟩ = false ∧ Stmt.wf ⟨.mov, [.reg 9, .num 16]⟩ = false := by decide

/-- R71: a literal NN outside 0 to 255, and JR's outside -128 to 127. -/
theorem test_wf_byte :
    Stmt.wf ⟨.mov, [.pc, .num 255]⟩ = true ∧ Stmt.wf ⟨.mov, [.pc, .num 256]⟩ = false
      ∧ Stmt.wf ⟨.mov, [.atNum 256, .reg 0]⟩ = false ∧ Stmt.wf ⟨.mov, [.reg 0, .atNum (-1)]⟩ = false
      ∧ Stmt.wf ⟨.jr, [.num (-128)]⟩ = true ∧ Stmt.wf ⟨.jr, [.num (-129)]⟩ = false
      ∧ Stmt.wf ⟨.jr, [.num 128]⟩ = false := by decide

/-- R71, R72: a bit number or a count over 3, an RG other than R0 to R3 and RS, a condition that is none. -/
theorem test_wf_bit_and_skip :
    Stmt.wf ⟨.bit, [.rs, .num 3]⟩ = true ∧ Stmt.wf ⟨.bit, [.rs, .num 4]⟩ = false
      ∧ Stmt.wf ⟨.bset, [.reg 4, .num 0]⟩ = false
      ∧ Stmt.wf ⟨.skip, [.cond .z]⟩ = true ∧ Stmt.wf ⟨.skip, [.cond .z, .num 4]⟩ = false
      ∧ Stmt.wf ⟨.skip, [.reg 0, .num 1]⟩ = false := by decide

/-- R71: where R0 is the one register allowed; a memory form with another register; a missing operand, one too many. -/
theorem test_wf_fixed_operands :
    Stmt.wf ⟨.ret, [.reg 1, .num 0]⟩ = false ∧ Stmt.wf ⟨.mov, [.atNum 0, .reg 1]⟩ = false
      ∧ Stmt.wf ⟨.mov, [.reg 1, .atPair 0 0]⟩ = false ∧ Stmt.wf ⟨.sub, [.reg 0, .num 1]⟩ = false
      ∧ Stmt.wf ⟨.dsz, []⟩ = false ∧ Stmt.wf ⟨.rrc, [.reg 0, .reg 0]⟩ = false := by decide

/-- Lines of the source's pages and of program P1b (95_test_vectors.md): the words beside them. -/
theorem test_assemble_source_lines :
    assembleLine "ADD R2,R0" = some 0x120 ∧ assembleLine "MOV [R9:R4],R0" = some 0xA94
      ∧ assembleLine "MOV R0,[0xE2]" = some 0xDE2 ∧ assembleLine "MOV PC,0x31" = some 0xE31
      ∧ assembleLine "jr -3" = some 0xFFD ∧ assembleLine "JR +5" = some 0xF05
      ∧ assembleLine "mov R3,10" = some 0x93A ∧ assembleLine "skip z" = some 0x0F9 := by decide

/-- R72, R74, R76: register names, a label, ADDC and LPC; R71: an operand out of range stands for no word. -/
theorem test_assemble_names :
    assembleLine "loop ADDC R2,R2" = some 0x222 ∧ assembleLine "LPC 0x31" = some 0xE31 ∧ assembleLine "MOV PCL,5" = some 0x9D5
      ∧ assembleLine "BIT RS,0" = some 0x09C ∧ assembleLine "CP R0,16" = none := by decide

/-- RG's number form, 3 and S (R72; log 27): the words of S29 and S31. -/
theorem test_assemble_rg_number_form :
    assembleLine "BIT S,0" = some 0x09C ∧ assembleLine "BIT 3,0" = some 0x09C ∧ assembleLine "BSET s,3" = some 0x0AF
      ∧ assembleLine "INC S" = none := by decide

/-- The sign's place (log 27). -/
theorem test_assemble_sign_place :
    assembleLine "JR -0x3" = none ∧ assembleLine "JR #-3" = none := by decide

/-! One step of the machine on one word. -/

/-- The parameters of the tests: the recommended ones, with I/O as plain cells, under which the vectors hold as written
(95_test_vectors.md section 0). -/
def plainIo : Params := { recommendedParams with ioModel := .plain }

/-- A state at an address with a word there, given flags and cells. -/
def at_ (pc : ProgAddr) (w : InstrWord) (flags : Bool × Bool × Bool) (cells : List (DataAddr × Nibble)) : State :=
  let s := cells.foldl (fun (t : State) e => t.setCell e.1 e.2) (State.resetWith plainIo)
  State.placeWord { s with pc := pc, c := flags.1, z := flags.2.1, v := flags.2.2 } w

/-- What a step gives, seen through `f`; none where it stops. -/
def seen {α : Type} (f : State → α) (o : Host.Outcome State Fault Refusal) : Option α :=
  match o with
  | .next t => some (f t)
  | .fault _ => none
  | .refused _ => none

/-- The fault a step stops with, if it does. -/
def stop (o : Host.Outcome State Fault Refusal) : Option Fault :=
  match o with
  | .next _ => none
  | .fault e => some e
  | .refused _ => none

/-- C, Z and V. -/
def flags (t : State) : Bool × Bool × Bool := (t.c, t.z, t.v)

/-! ADD, ADC, SUB, SBB, OR, AND, XOR RX,RY. -/

/-- S1. -/
theorem test_add :
    seen (fun t => (t.cell 0x02, t.cell 0x00, flags t))
      (step (at_ 0x000 0x120 (true, false, false)
        [(0x02, 11), (0x00, 7)]))
      = some ((2 : Nibble), (7 : Nibble), (true, false, false)) := by decide

/-- V-ADD-1. -/
theorem test_add_all_flags :
    seen (fun t => (t.cell 0x01, flags t))
      (step (at_ 0x000 0x112 (false, false, false)
        [(0x01, 8), (0x02, 8)]))
      = some ((0 : Nibble), (true, true, true)) := by decide

/-- S2. -/
theorem test_adc :
    seen (fun t => (t.cell 0x01, flags t))
      (step (at_ 0x000 0x217 (true, false, false)
        [(0x01, 4), (0x07, 11)]))
      = some ((0 : Nibble), (true, true, false)) := by decide

/-- V-ADC-4. -/
theorem test_adc_same_register :
    seen (fun t => (t.cell 0x03, flags t))
      (step (at_ 0x000 0x233 (false, false, false)
        [(0x03, 9)]))
      = some ((2 : Nibble), (true, false, true)) := by decide

/-- S3. -/
theorem test_sub :
    seen (fun t => (t.cell 0x06, flags t))
      (step (at_ 0x000 0x362 (false, false, false)
        [(0x06, 15), (0x02, 9)]))
      = some ((6 : Nibble), (true, false, false)) := by decide

/-- V-SUB-4. -/
theorem test_sub_overflow :
    seen (fun t => (t.cell 0x01, flags t))
      (step (at_ 0x000 0x312 (false, false, false)
        [(0x01, 7), (0x02, 15)]))
      = some ((8 : Nibble), (false, false, true)) := by decide

/-- S6. -/
theorem test_sbb :
    seen (fun t => (t.cell 0x06, flags t))
      (step (at_ 0x000 0x467 (true, false, false)
        [(0x06, 6), (0x07, 14)]))
      = some ((8 : Nibble), (false, false, true)) := by decide

/-- V-SBB-3. -/
theorem test_sbb_borrows_sixteen :
    seen (fun t => (t.cell 0x01, flags t))
      (step (at_ 0x000 0x412 (false, false, false)
        [(0x01, 0), (0x02, 15)]))
      = some ((0 : Nibble), (false, true, false)) := by decide

/-- S7. -/
theorem test_or :
    seen (fun t => (t.cell 0x00, flags t))
      (step (at_ 0x000 0x507 (false, true, false)
        [(0x00, 5), (0x07, 12)]))
      = some ((13 : Nibble), (false, false, false)) := by decide

/-- V-OR-1. -/
theorem test_or_keeps_c_and_v :
    seen (fun t => (t.cell 0x01, flags t))
      (step (at_ 0x000 0x512 (true, false, true)
        [(0x01, 0), (0x02, 0)]))
      = some ((0 : Nibble), (true, true, true)) := by decide

/-- S8; R11 is the active IN, its value in the cell. -/
theorem test_and :
    seen (fun t => (t.cell 0x0A, flags t))
      (step (at_ 0x000 0x6AB (false, true, false)
        [(0x0A, 14), (0x0B, 7)]))
      = some ((6 : Nibble), (false, false, false)) := by decide

/-- V-AND-1. -/
theorem test_and_zero :
    seen (fun t => (t.cell 0x01, flags t))
      (step (at_ 0x000 0x612 (true, false, true)
        [(0x01, 5), (0x02, 10)]))
      = some ((0 : Nibble), (true, true, true)) := by decide

/-- S9. -/
theorem test_xor :
    seen (fun t => (t.cell 0x08, flags t))
      (step (at_ 0x000 0x783 (false, true, false)
        [(0x08, 6), (0x03, 12)]))
      = some ((10 : Nibble), (false, false, false)) := by decide

/-- V-XOR-1. -/
theorem test_xor_same_register :
    seen (fun t => (t.cell 0x04, flags t))
      (step (at_ 0x000 0x744 (true, false, true)
        [(0x04, 11)]))
      = some ((0 : Nibble), (true, true, true)) := by decide

/-! MOV. -/

/-- S10. -/
theorem test_mov_registers :
    seen (fun t => (t.cell 0x06, t.cell 0x05, flags t))
      (step (at_ 0x000 0x865 (false, false, false)
        [(0x06, 14), (0x05, 2)]))
      = some ((2 : Nibble), (2 : Nibble), (false, false, false)) := by decide

/-- R146, MOV PCL,R1: the jump to PCH:PCM:PCL. -/
theorem test_mov_pcl_jumps :
    seen (fun t => (t.cell 0x0D, t.pc))
      (step (at_ 0x000 0x8D1 (false, false, false)
        [(0x01, 9), (0x0F, 15)]))
      = some ((9 : Nibble), (0xF09 : ProgAddr)) := by decide

/-- S11. -/
theorem test_mov_literal :
    seen (fun t => (t.cell 0x09, flags t))
      (step (at_ 0x000 0x997 (false, true, false)
        [(0x09, 10)]))
      = some ((7 : Nibble), (false, true, false)) := by decide

/-- R146, MOV JSR,7: the return address is pushed low nibble first. -/
theorem test_mov_jsr_calls :
    seen (fun t => (t.cell 0x10, t.cell 0x11, t.cell 0x12, t.pc))
      (step (at_ 0xABC 0x9C7 (false, false, false)
        [(0x0E, 4), (0x0F, 1)]))
      = some ((13 : Nibble), (11 : Nibble), (10 : Nibble), (0x147 : ProgAddr)) := by decide

/-- S12. -/
theorem test_store_pair :
    seen (fun t => (t.cell 0x12, t.cell 0x09))
      (step (at_ 0x000 0xA94 (false, false, false)
        [(0x09, 1), (0x04, 2), (0x00, 15), (0x12, 5)]))
      = some ((15 : Nibble), (1 : Nibble)) := by decide

/-- V-MOV-3. -/
theorem test_store_pair_on_register :
    seen (fun t => t.cell 0x05)
      (step (at_ 0x000 0xA12 (false, false, false)
        [(0x01, 0), (0x02, 5), (0x00, 9)]))
      = some (9 : Nibble) := by decide

/-- S13. -/
theorem test_load_pair :
    seen (fun t => t.cell 0x00)
      (step (at_ 0x000 0xB47 (false, false, false)
        [(0x04, 5), (0x07, 10), (0x5A, 14), (0x00, 3)]))
      = some (14 : Nibble) := by decide

/-- V-MOV-5. -/
theorem test_load_pair_address_from_r0 :
    seen (fun t => t.cell 0x00)
      (step (at_ 0x000 0xB01 (false, false, false)
        [(0x00, 3), (0x01, 4), (0x34, 12)]))
      = some (12 : Nibble) := by decide

/-- S14. -/
theorem test_store_direct :
    seen (fun t => t.cell 0x19)
      (step (at_ 0x000 0xC19 (false, false, false)
        [(0x00, 9), (0x19, 7)]))
      = some (9 : Nibble) := by decide

/-- S15. -/
theorem test_load_direct :
    seen (fun t => t.cell 0x00)
      (step (at_ 0x000 0xDE2 (false, false, false)
        [(0xE2, 14), (0x00, 3)]))
      = some (14 : Nibble) := by decide

/-- V-MOV-15 under IO_MODEL = plain. -/
theorem test_load_direct_second_in :
    seen (fun t => t.cell 0x00)
      (step (at_ 0x000 0xDFB (false, false, false)
        [(0xF3, 2), (0xFB, 6)]))
      = some (6 : Nibble) := by decide

/-- S16. -/
theorem test_mov_pc :
    seen (fun t => (t.cell 0x0E, t.cell 0x0F, t.pc))
      (step (at_ 0x000 0xE31 (false, false, false)
        [(0x0E, 10), (0x0F, 6)]))
      = some ((1 : Nibble), (3 : Nibble), (0x001 : ProgAddr)) := by decide

/-- V-MOV-9. -/
theorem test_mov_pc_no_jump :
    seen (fun t => (t.cell 0x0E, t.cell 0x0F, t.pc))
      (step (at_ 0x000 0xEFF (false, false, false)
        []))
      = some ((15 : Nibble), (15 : Nibble), (0x001 : ProgAddr)) := by decide

/-! JR, RRC, RET, SKIP. -/

/-- S17. -/
theorem test_jr_back :
    seen (fun t => t.pc)
      (step (at_ 0x040 0xFFD (false, false, false)
        []))
      = some (0x03E : ProgAddr) := by decide

/-- V-JR-6. -/
theorem test_jr_wraps :
    seen (fun t => t.pc)
      (step (at_ 0x000 0xFFE (false, false, false)
        []))
      = some (0xFFF : ProgAddr) := by decide

/-- S36. -/
theorem test_rrc :
    seen (fun t => (t.cell 0x04, flags t))
      (step (at_ 0x000 0x0D4 (true, false, false)
        [(0x04, 4)]))
      = some ((10 : Nibble), (false, false, false)) := by decide

/-- V-RRC-1. -/
theorem test_rrc_to_zero :
    seen (fun t => (t.cell 0x01, flags t))
      (step (at_ 0x000 0x0D1 (false, false, true)
        [(0x01, 1)]))
      = some ((0 : Nibble), (true, true, true)) := by decide

/-- S37. -/
theorem test_ret :
    seen (fun t => (t.cell 0x00, t.pc))
      (step { at_ 0x25B 0x0E4 (false, false, false)
        [(0x00, 10), (0x10, 15), (0x13, 11), (0x14, 12), (0x15, 1)] with sp := 2 })
      = some ((4 : Nibble), (0x1CB : ProgAddr)) := by decide

/-- V-RET-2. -/
theorem test_ret_level_four :
    seen (fun t => (t.cell 0x00, t.pc))
      (step { at_ 0x100 0x0EF (false, false, false)
        [(0x1C, 15), (0x1D, 15), (0x1E, 15)] with sp := 5 })
      = some ((15 : Nibble), (0xFFF : ProgAddr)) := by decide

/-- S38. -/
theorem test_skip_two :
    seen (fun t => t.pc)
      (step (at_ 0x08D 0x0F6 (false, true, false)
        []))
      = some (0x090 : ProgAddr) := by decide

/-- V-SKIP-9. -/
theorem test_skip_four_wraps :
    seen (fun t => t.pc)
      (step (at_ 0xFFE 0x0F4 (false, false, false)
        []))
      = some (0x003 : ProgAddr) := by decide

/-! The R0-with-literal instructions, INC, DEC, DSZ. -/

/-- S19. -/
theorem test_cp :
    seen (fun t => (t.cell 0x00, flags t))
      (step (at_ 0x000 0x005 (false, false, true)
        [(0x00, 5)]))
      = some ((5 : Nibble), (true, true, true)) := by decide

/-- V-CP-2. -/
theorem test_cp_below :
    seen (fun t => (t.cell 0x00, flags t))
      (step (at_ 0x000 0x009 (true, true, false)
        [(0x00, 3)]))
      = some ((3 : Nibble), (false, false, false)) := by decide

/-- S20. -/
theorem test_add_literal :
    seen (fun t => (t.cell 0x00, flags t))
      (step (at_ 0x000 0x01E (false, false, false)
        [(0x00, 2)]))
      = some ((0 : Nibble), (true, true, false)) := by decide

/-- V-ADDN-3. -/
theorem test_add_literal_keeps_v :
    seen (fun t => (t.cell 0x00, flags t))
      (step (at_ 0x000 0x018 (true, false, true)
        [(0x00, 7)]))
      = some ((15 : Nibble), (false, false, true)) := by decide

/-- S21. -/
theorem test_inc_wraps :
    seen (fun t => (t.cell 0x03, flags t))
      (step (at_ 0x000 0x023 (false, false, false)
        [(0x03, 15)]))
      = some ((0 : Nibble), (true, true, false)) := by decide

/-- R146, INC PCL: PCM is not carried into. -/
theorem test_inc_pcl :
    seen (fun t => (t.cell 0x0D, t.cell 0x0E, flags t, t.pc))
      (step (at_ 0x000 0x02D (false, false, false)
        [(0x0D, 15), (0x0E, 1)]))
      = some ((0 : Nibble), (1 : Nibble), (true, true, false), (0x010 : ProgAddr)) := by decide

/-- S22; C by the text (C13). -/
theorem test_dec :
    seen (fun t => (t.cell 0x08, flags t))
      (step (at_ 0x000 0x038 (false, false, false)
        [(0x08, 2)]))
      = some ((1 : Nibble), (true, false, false)) := by decide

/-- R146, DEC PCL. -/
theorem test_dec_pcl :
    seen (fun t => (t.cell 0x0D, flags t, t.pc))
      (step (at_ 0x000 0x03D (true, true, false)
        [(0x0E, 1)]))
      = some ((15 : Nibble), (false, false, false), (0x01F : ProgAddr)) := by decide

/-- S23. -/
theorem test_dsz_skips :
    seen (fun t => (t.cell 0x03, flags t, t.pc))
      (step (at_ 0xA80 0x043 (false, false, false)
        [(0x03, 1)]))
      = some ((0 : Nibble), (false, false, false), (0xA82 : ProgAddr)) := by decide

/-- V-DSZ-3. -/
theorem test_dsz_wraps :
    seen (fun t => (t.cell 0x05, flags t, t.pc))
      (step (at_ 0x200 0x045 (true, true, true)
        [(0x05, 0)]))
      = some ((15 : Nibble), (true, true, true), (0x201 : ProgAddr)) := by decide

/-- S24. -/
theorem test_or_literal :
    seen (fun t => (t.cell 0x00, flags t))
      (step (at_ 0x000 0x056 (false, true, false)
        [(0x00, 3)]))
      = some ((7 : Nibble), (true, false, false)) := by decide

/-- V-ORN-2. -/
theorem test_or_literal_zero :
    seen (fun t => (t.cell 0x00, flags t))
      (step (at_ 0x000 0x050 (false, false, false)
        [(0x00, 0)]))
      = some ((0 : Nibble), (true, true, false)) := by decide

/-- S25. -/
theorem test_and_literal :
    seen (fun t => (t.cell 0x00, flags t))
      (step (at_ 0x000 0x06A (true, true, false)
        [(0x00, 12)]))
      = some ((8 : Nibble), (false, false, false)) := by decide

/-- V-ANDN-2. -/
theorem test_and_literal_zero :
    seen (fun t => (t.cell 0x00, flags t))
      (step (at_ 0x000 0x060 (true, false, false)
        [(0x00, 6)]))
      = some ((0 : Nibble), (false, true, false)) := by decide

/-- S26. -/
theorem test_xor_literal :
    seen (fun t => (t.cell 0x00, flags t))
      (step (at_ 0x000 0x073 (true, true, false)
        [(0x00, 9)]))
      = some ((10 : Nibble), (false, false, false)) := by decide

/-- V-XORN-1. -/
theorem test_xor_literal_sets_c :
    seen (fun t => (t.cell 0x00, flags t))
      (step (at_ 0x000 0x070 (false, false, false)
        [(0x00, 5)]))
      = some ((5 : Nibble), (true, false, false)) := by decide

/-! EXR and the bit instructions. -/

/-- S27, at the first, the last and the first not exchanged pair. -/
theorem test_exr_ten :
    seen (fun t => (t.cell 0x00, t.cell 0x09, t.cell 0x0A, t.cell 0xE0, t.cell 0xE9, t.cell 0xEA))
      (step (at_ 0x000 0x08A (false, false, false)
        [(0x00, 11), (0x09, 8), (0x0A, 15), (0xE0, 14), (0xE9, 3), (0xEA, 1)]))
      = some ((14 : Nibble), (3 : Nibble), (15 : Nibble), (11 : Nibble), (8 : Nibble), (1 : Nibble)) := by decide +kernel

/-- V-EXR-6 under OTHER_PC_WRITES = plain, at R0, JSR and R15. -/
theorem test_exr_sixteen_plain :
    seen (fun t => (t.cell 0x00, t.cell 0x0C, t.cell 0x0F, t.cell 0xE0, t.cell 0xEC, t.cell 0xEF, t.pc))
      (step { at_ 0x000 0x080 (false, false, false)
        [(0x01, 1), (0x0C, 12), (0x0F, 15), (0xE0, 15), (0xEC, 3)] with params := { plainIo with otherPcWrites := .plain } })
      = some ((15 : Nibble), (3 : Nibble), (0 : Nibble), (0 : Nibble), (12 : Nibble), (15 : Nibble), (0x001 : ProgAddr)) := by decide +kernel

/-- S28. -/
theorem test_bit_of_register :
    seen (fun t => (t.cell 0x02, flags t))
      (step (at_ 0x000 0x09B (false, true, false)
        [(0x02, 13)]))
      = some ((13 : Nibble), (false, false, false)) := by decide

/-- V-BIT-5. -/
theorem test_bit_of_second_in :
    seen (fun t => (t.cell 0x0B, flags t))
      (step (at_ 0x000 0x09E (false, false, false)
        [(0xF3, 2), (0xFB, 0), (0x0B, 4)]))
      = some ((4 : Nibble), (false, true, false)) := by decide

/-- S30. -/
theorem test_bset :
    seen (fun t => (t.cell 0x01, flags t))
      (step (at_ 0x000 0x0A6 (true, true, true)
        [(0x01, 8)]))
      = some ((12 : Nibble), (true, true, true)) := by decide

/-- S31. -/
theorem test_bset_second_out :
    seen (fun t => (t.cell 0xFA, t.cell 0x0A))
      (step (at_ 0x000 0x0AF (false, false, false)
        [(0xF3, 11)]))
      = some ((8 : Nibble), (0 : Nibble)) := by decide

/-- S32. -/
theorem test_bclr :
    seen (fun t => (t.cell 0x00, flags t))
      (step (at_ 0x000 0x0B1 (false, true, false)
        [(0x00, 15)]))
      = some ((13 : Nibble), (false, true, false)) := by decide

/-- S33. -/
theorem test_bclr_first_out :
    seen (fun t => (t.cell 0x0A, t.cell 0xFA, flags t))
      (step (at_ 0x000 0x0BD (false, false, true)
        [(0xF3, 13), (0x0A, 14), (0xFA, 14)]))
      = some ((12 : Nibble), (14 : Nibble), (false, false, true)) := by decide

/-- S34. -/
theorem test_btg :
    seen (fun t => (t.cell 0x02, flags t))
      (step (at_ 0x000 0x0C8 (true, false, true)
        [(0x02, 5)]))
      = some ((4 : Nibble), (true, false, true)) := by decide

/-- S35. -/
theorem test_btg_second_out :
    seen (fun t => (t.cell 0xFA, t.cell 0x0A))
      (step (at_ 0x000 0x0CF (false, false, false)
        [(0xF3, 7), (0xFA, 15), (0x0A, 15)]))
      = some ((7 : Nibble), (15 : Nibble)) := by decide

/-! Faults (R222), the four of them, each at the address of its instruction. -/

/-- V-RET-3: StackUnderflow. -/
theorem test_fault_stack_underflow :
    stop (step (at_ 0x000 0x0E3 (false, false, false) [])) = some (.stackUnderflow 0x000) := by decide

/-- R146, MOV JSR,1 with a full stack: StackOverflow. -/
theorem test_fault_stack_overflow :
    stop (step { at_ 0x123 0x9C1 (false, false, false) [] with sp := 5 }) = some (.stackOverflow 0x123) := by decide

/-- V-MOV-13 and its neighbour V-MOV-14: UnmodelledSFR at 0xF0, none at 0xF3. -/
theorem test_fault_unmodelled_sfr :
    stop (step (at_ 0x000 0xCF0 (false, false, false) [])) = some (.unmodelledSFR 0x000 0xF0 .write)
      ∧ stop (step (at_ 0x000 0xCF3 (false, false, false) [(0x00, 2)])) = none := by decide

/-- V-ALU-PC and V-EXR-5: UnspecifiedPcWrite. -/
theorem test_fault_unspecified_pc_write :
    stop (step (at_ 0x000 0x1D0 (false, false, false) [])) = some (.unspecifiedPcWrite 0x000 0x0D)
      ∧ stop (step (at_ 0x000 0x08D (false, false, false) [])) = some (.unspecifiedPcWrite 0x000 0x0C)
      ∧ stop (step (at_ 0x000 0x08C (false, false, false) [])) = none := by decide +kernel

/-- R146, the last row: ADD PCL,R0 under `trigger` and under `plain`. -/
theorem test_add_pcl_settings :
    seen (fun t => (t.cell 0x0D, t.pc))
        (step { at_ 0x000 0x1D0 (false, false, false) [(0x0D, 4), (0x0E, 2), (0x00, 1)] with
          params := { plainIo with otherPcWrites := .trigger } }) = some ((5 : Nibble), (0x025 : ProgAddr))
      ∧ seen (fun t => (t.cell 0x0D, t.pc))
        (step { at_ 0x000 0x1D0 (false, false, false) [(0x0D, 4), (0x0E, 2), (0x00, 1)] with
          params := { plainIo with otherPcWrites := .plain } }) = some ((5 : Nibble), (0x001 : ProgAddr)) := by decide

/-! I/O under IO_MODEL = external (95_test_vectors.md section 0). -/

/-- A state with I/O to the environment and two nibbles in the supply. -/
def withIo (s : State) : State := { s with params := recommendedParams, inputs := [6, 9] }

/-- V-EXR-3: one Output(5) event and one Input(). -/
theorem test_exr_io :
    seen (fun t => (t.outputs, t.inputs, t.cell 0xEB, t.cell 0x0B))
      (step (withIo (at_ 0x000 0x08C (false, false, false) [(0xEA, 5), (0xEB, 4)])))
      = some ([5], [9], (6 : Nibble), (4 : Nibble)) := by decide +kernel

/-- V-BSET-3: Output(7), from the stored 6. -/
theorem test_bset_io :
    seen (fun t => (t.outputs, t.inputs)) (step (withIo (at_ 0x000 0x0AC (false, false, false) [(0x0A, 6)])))
      = some ([7], [6, 9]) := by decide

/-- V-MOV-15: 0xFB is the active IN, its value is Input(). -/
theorem test_input_second_location :
    seen (fun t => (t.cell 0x00, t.inputs)) (step (withIo (at_ 0x000 0xDFB (false, false, false) [(0xF3, 2)])))
      = some ((6 : Nibble), [9]) := by decide

/-- R7, R120: ADD IN,IN reads its one cell once. -/
theorem test_input_once_for_one_cell :
    seen (fun t => (t.cell 0x0B, t.inputs)) (step (withIo (at_ 0x000 0x1BB (false, false, false) [])))
      = some ((12 : Nibble), [9]) := by decide

/-! From reset (R29, R240). -/

/-- The empty program memory's first word is CP R0,0 (R65, R66; log 5). -/
theorem test_reset_steps :
    seen (fun t => (t.pc, t.c, t.z)) (step State.reset) = some ((0x001 : ProgAddr), true, true) := by decide

/-- A word placed at the fetch runs next. -/
theorem test_withFetchWord :
    seen (fun t => t.cell 0x09) (step (State.reset.withFetchWord 12 0x997)) = some (7 : Nibble) := by decide

/-! Witnesses: a state and operands that meet all hypotheses of each statement that has any, at the ends of their ranges. -/

/-- The state the witnesses start from: the reset state with the given class other setting and SP. -/
def base (k : OtherPcWrites) (sp : Nat) : State :=
  { State.reset with params := { recommendedParams with otherPcWrites := k }, sp := sp }

theorem witness_EveryWordIsOneInstruction : encode (.jrNn 0xFF) = 0xFFF := by decide

theorem witness_StepRunsTheDecodedInstruction :
    decode ((State.reset.placeWord 0xFFD).pm.read (State.reset.placeWord 0xFFD).pc.toNat) = .jrNn 0xFD := by decide

/-- At the register below JSR, at PCH, and at JSR and PCL where the setting lets them be written. -/
theorem witness_AddRegisters :
    State.reset.pcWriteFault (regCell 11) .other = none ∧ State.reset.pcWriteFault (regCell 14) .other = none
      ∧ (base .plain 0).pcWriteFault (regCell 12) .other = none ∧ (base .trigger 4).pcWriteFault (regCell 12) .other = none
      ∧ (base .trigger 5).pcWriteFault (regCell 13) .other = none := by decide

/-- Room for one more return address, and another register with a full stack. -/
theorem witness_MovToRegister :
    (base .refuse 4).sp < (base .refuse 4).params.stackDepth ∧ ((13 : Reg) = 12 → (5 : Nat) < 5) := by decide

/-- Stores at the last cell below page 15, at WRFLAGS, and at PCL under `plain`. -/
theorem witness_StoreR0 :
    (0xEF : DataAddr).toNat = 16 * ((at_ 0 0 (false, false, false) [(1, 14), (2, 15)]).reg 1).toNat
        + ((at_ 0 0 (false, false, false) [(1, 14), (2, 15)]).reg 2).toNat
      ∧ State.reset.sfrFault 0xEF .write = none ∧ State.reset.pcWriteFault 0xEF .other = none
      ∧ State.reset.sfrFault 0xF3 .write = none ∧ State.reset.pcWriteFault 0xF3 .other = none
      ∧ (base .plain 0).sfrFault 0x0D .write = none ∧ (base .plain 0).pcWriteFault 0x0D .other = none := by decide

theorem witness_LoadR0 :
    (0x00 : DataAddr).toNat = 16 * (State.reset.reg 1).toNat + (State.reset.reg 2).toNat
      ∧ State.reset.sfrFault 0x00 .read = none ∧ State.reset.sfrFault 0xEF .read = none
      ∧ State.reset.sfrFault 0xFB .read = none := by decide

/-- SP at 0, 1 and 5. -/
theorem witness_ReturnFromSubroutine :
    State.reset.sp = 0 ∧ ((base .refuse 1).sp = 0 + 1 ∧ 0 < 5) ∧ ((base .refuse 5).sp = 4 + 1 ∧ 4 < 5) := by decide

/-- Counts 1, 12 and, under `plain`, 16. -/
theorem witness_ExchangeRegisters :
    (1 = (if (1 : Nibble) = 0 then 16 else (1 : Nibble).toNat) ∧ 1 < 13)
      ∧ (12 = (if (12 : Nibble) = 0 then 16 else (12 : Nibble).toNat) ∧ 12 < 13)
      ∧ (16 = (if (0 : Nibble) = 0 then 16 else (0 : Nibble).toNat) ∧ (base .plain 0).params.otherPcWrites = .plain) := by decide

/-- RS with the second OUT location active, bit 3 of a cell that holds 0110. -/
theorem witness_ChangeBitOfRegister :
    (if ((at_ 0 0 (false, false, false) [(0xF3, 2), (0xFA, 6)]).cell 0xF3).getLsbD 1 then (0xFA : DataAddr) else 0x0A) = 0xFA
      ∧ (∀ j, j < 4 → (14 : Nibble).getLsbD j
          = (decide (j = (3 : BitVec 2).toNat) || ((at_ 0 0 (false, false, false) [(0xF3, 2), (0xFA, 6)]).cell 0xFA).getLsbD j))
      ∧ (∀ j, j < 4 → (6 : Nibble).getLsbD j
          = (!decide (j = (3 : BitVec 2).toNat) && ((at_ 0 0 (false, false, false) [(0xF3, 2), (0xFA, 6)]).cell 0xFA).getLsbD j))
      ∧ (∀ j, j < 4 → (14 : Nibble).getLsbD j
          = (decide (j = (3 : BitVec 2).toNat) ^^ ((at_ 0 0 (false, false, false) [(0xF3, 2), (0xFA, 6)]).cell 0xFA).getLsbD j)) := by
  decide

/-- R4 = 0100 with C = 1 becomes 1010 (S36). -/
theorem witness_RotateRightThroughCarry :
    (at_ 0 0 (true, false, false) [(4, 4)]).pcWriteFault (regCell 4) .other = none
      ∧ (10 : Nibble).getLsbD 3 = (at_ 0 0 (true, false, false) [(4, 4)]).c
      ∧ (10 : Nibble).getLsbD 2 = ((at_ 0 0 (true, false, false) [(4, 4)]).reg 4).getLsbD 3
      ∧ (10 : Nibble).getLsbD 1 = ((at_ 0 0 (true, false, false) [(4, 4)]).reg 4).getLsbD 2
      ∧ (10 : Nibble).getLsbD 0 = ((at_ 0 0 (true, false, false) [(4, 4)]).reg 4).getLsbD 1 := by decide

/-- SP at STACK_DEPTH, and one below. -/
theorem witness_WriteOfJsrCalls :
    State.reset.params.stackDepth ≤ 5 ∧ (base .refuse 5).params.stackDepth ≤ (base .refuse 5).sp
      ∧ (base .refuse 4).sp < (base .refuse 4).params.stackDepth := by decide

/-- DSZ of JSR, and MOV [XY],R0 whose pair addresses PCL. -/
theorem witness_OtherWritesArePlain :
    (base .plain 5).params.otherPcWrites = .plain ∧ ((12 : Reg) = 12 ∨ (12 : Reg) = 13) ∧ ((13 : Reg) = 12 ∨ (13 : Reg) = 13)
      ∧ Instr.dszRy 12 ∈ ([.addRxRy 12 0, .adcRxRy 12 0, .subRxRy 12 0, .sbbRxRy 12 0, .orRxRy 12 0, .andRxRy 12 0,
        .xorRxRy 12 0, .movNnR0 ((12 : Reg).setWidth 8), .dszRy 12, .rrcRy 12] : List Instr)
      ∧ ((base .plain 5).setCell 0x02 13).params.otherPcWrites = .plain
      ∧ ((base .plain 5).setCell 0x02 13).pairOf 1 2 = (13 : Reg).setWidth 8 := by decide

/-- JSR with SP one below STACK_DEPTH, by either store; PCL with a full stack. -/
theorem witness_OtherWritesTrigger :
    (base .trigger 4).params.otherPcWrites = .trigger ∧ (base .trigger 4).params.stackDepth ≤ 5
      ∧ (base .trigger 4).sp < (base .trigger 4).params.stackDepth ∧ (base .trigger 5).params.stackDepth ≤ 5
      ∧ Instr.movNnR0 0x0C ∈ ([.addRxRy 12 0, .adcRxRy 12 0, .subRxRy 12 0, .sbbRxRy 12 0, .orRxRy 12 0, .andRxRy 12 0,
        .xorRxRy 12 0, .movNnR0 ((12 : Reg).setWidth 8), .dszRy 12, .rrcRy 12] : List Instr)
      ∧ ((base .trigger 4).setCell 0x02 12).params.otherPcWrites = .trigger
      ∧ ((base .trigger 4).setCell 0x02 12).sp < ((base .trigger 4).setCell 0x02 12).params.stackDepth
      ∧ ((base .trigger 4).setCell 0x02 12).pairOf 1 2 = (12 : Reg).setWidth 8 := by decide

/-- Both I/O locations. -/
theorem witness_InputAndOutput :
    (withIo State.reset).params.ioModel = .external ∧ (withIo State.reset).inputs = 6 :: [9]
      ∧ (if ((withIo State.reset).cell 0xF3).getLsbD 1 then (0xFA : DataAddr) else 0x0A) = 0x0A
      ∧ (if ((withIo (at_ 0 0 (false, false, false) [(0xF3, 2)])).cell 0xF3).getLsbD 1 then (0xFA : DataAddr)
        else 0x0A) = 0xFA := by decide

/-- The reset state meets the invariant and its step gives a next state. -/
theorem witness_ProgramIsNeverWritten : State.reset.Inv ∧ ∃ t, step State.reset = .next t := ⟨by decide, _, rfl⟩

/-- An instruction that writes no flag, one that writes Z alone, one that keeps V. -/
theorem witness_FlagsChangeOnlyByTable :
    ((∃ t, exec (.movRxN 9 7) State.reset = .next t) ∧ flagsWritten (.movRxN 9 7) = (false, false, false))
      ∧ ((∃ t, exec (.orRxRy 1 2) State.reset = .next t) ∧ flagsWritten (.orRxRy 1 2) = (false, true, false))
      ∧ ((∃ t, exec (.cpR0N 0) State.reset = .next t) ∧ flagsWritten (.cpR0N 0) = (true, true, false)) :=
  ⟨⟨⟨_, rfl⟩, rfl⟩, ⟨⟨_, rfl⟩, rfl⟩, ⟨_, rfl⟩, rfl⟩

/-- A call at the last level, a return to level 0, and an instruction that is neither. -/
theorem witness_StackPointerChangesOnlyByCallAndRet :
    (∃ t, exec (.movRxN 12 7) (base .refuse 4) = .next t) ∧ (∃ t, exec (.retR0N 4) (base .refuse 1) = .next t)
      ∧ ∃ t, exec (.movRxN 11 7) State.reset = .next t := ⟨⟨_, rfl⟩, ⟨_, rfl⟩, _, rfl⟩

/-- A SKIP whose condition does not hold, and a DSZ that does not reach 0. -/
theorem witness_PcMovesOnlyByTable :
    ((∃ t, exec (.skipFM .c 0) State.reset = .next t) ∧ ¬ State.reset.mayMovePc (.skipFM .c 0))
      ∧ (∃ t, exec (.dszRy 5) State.reset = .next t) ∧ ¬ State.reset.mayMovePc (.dszRy 5) := by
  refine ⟨⟨⟨_, rfl⟩, ?_⟩, ⟨_, rfl⟩, ?_⟩
  · show ¬ State.reset.condHolds .c = true
    decide
  · show ¬ (State.reset.reg 5 = 1 ∨ State.reset.triggers (regCell 5) .other = true)
    decide

/-- EXR 12, which reads IN and writes OUT. -/
theorem witness_AtMostOneEventPerInstruction : ∃ t, exec (.exrN 12) (withIo State.reset) = .next t := ⟨_, rfl⟩

/-- A plain register, with a cell that is neither it nor on the stack, and JSR with the stack's last level, the cell below it. -/
theorem witness_RegisterWriterFrame :
    (Instr.addRxRy 15 0 ∈ ([.addRxRy 15 0, .adcRxRy 15 0, .subRxRy 15 0, .sbbRxRy 15 0, .orRxRy 15 0, .andRxRy 15 0,
        .xorRxRy 15 0, .movRxRy 15 0, .movRxN 15 3, .incRy 15, .decRy 15, .dszRy 15, .rrcRy 15] : List Instr)
        ∧ (∃ t, exec (.addRxRy 15 0) State.reset = .next t ∧ t.sp = State.reset.sp)
        ∧ (0x10 : DataAddr) ≠ regCell 15 ∧ regCell 15 ≠ State.reset.outAddr)
      ∧ Instr.movRxN 12 3 ∈ ([.addRxRy 12 0, .adcRxRy 12 0, .subRxRy 12 0, .sbbRxRy 12 0, .orRxRy 12 0, .andRxRy 12 0,
        .xorRxRy 12 0, .movRxRy 12 0, .movRxN 12 3, .incRy 12, .decRy 12, .dszRy 12, .rrcRy 12] : List Instr)
      ∧ (∃ t, exec (.movRxN 12 3) (base .refuse 4) = .next t) ∧ (0x1B : DataAddr) ≠ regCell 12 ∧ ¬ inStackLevel 4 0x1B := by
  refine ⟨⟨by decide, ⟨_, rfl, rfl⟩, by decide, by decide⟩, by decide, ⟨_, rfl⟩, by decide, ?_⟩
  show ¬ ((0x1B : DataAddr) = stackCell 4 0 ∨ (0x1B : DataAddr) = stackCell 4 1 ∨ (0x1B : DataAddr) = stackCell 4 2)
  decide

/-- Both store forms, at the last cell below page 15 and at the active OUT location's neighbour. -/
theorem witness_StoreFrame :
    (∃ t, exec (.movNnR0 0xEF) State.reset = .next t ∧ t.sp = State.reset.sp) ∧ (0xEE : DataAddr) ≠ 0xEF
      ∧ (∃ t, exec (.movXyR0 1 2) State.reset = .next t) ∧ State.reset.pairOf 1 2 = 0x00
      ∧ (0x09 : DataAddr) ≠ State.reset.outAddr :=
  ⟨⟨_, rfl, rfl⟩, by decide, ⟨_, rfl⟩, by decide, by decide⟩

theorem witness_R0WriterFrame :
    (∃ t, exec (.retR0N 15) (base .refuse 5) = .next t) ∧ (∃ t, exec (.movR0Nn 0xEF) State.reset = .next t)
      ∧ Instr.movR0Nn 0xEF ≠ .retR0N 15 ∧ (0xFF : DataAddr) ≠ 0x00
      ∧ Instr.retR0N 15 ∈ ([.movR0Xy 0 0, .movR0Nn 0xEF, .addR0N 15, .orR0N 15, .andR0N 15, .xorR0N 15, .retR0N 15] : List Instr) :=
  ⟨⟨_, rfl⟩, ⟨_, rfl⟩, by decide, by decide, by decide⟩

theorem witness_BitModifierFrame :
    (∃ t, exec (.bsetRgM .rs 3) State.reset = .next t) ∧ (∃ t, exec (.bclrRgM .r0 0) State.reset = .next t)
      ∧ State.reset.modifyAddr .r0 ≠ State.reset.outAddr ∧ (0x0B : DataAddr) ≠ State.reset.modifyAddr .rs :=
  ⟨⟨_, rfl⟩, ⟨_, rfl⟩, by decide, by decide⟩

theorem witness_NothingStoredFrame :
    (∃ t, exec (.jrNn 0x80) State.reset = .next t) ∧ ∃ t, exec (.bitRgM .r2 3) State.reset = .next t := ⟨⟨_, rfl⟩, _, rfl⟩

/-- A full stack at reset, and no stack at all. -/
theorem witness_ResetIsALaunch :
    paramsFit { recommendedParams with resetSp := 5, resetIopos := true }
      ∧ paramsFit { recommendedParams with stackDepth := 0 } := by decide

theorem witness_MemoriesThatReadAlikeAreEqual :
    Memory.wf 256 ([(0, 1), (255, 15)] : Memory 4)
      ∧ Memory.write (Memory.write ([(0, 1)] : Memory 4) 255 15) 7 0 = [(0, 1), (255, 15)] := by decide

theorem witness_StoreThenLoad :
    ((0xEF : DataAddr).toNat < 0xF0 ∧ (0xEF : DataAddr) ≠ 0x0B ∧ (0xEF : DataAddr) ≠ 0x0C ∧ (0xEF : DataAddr) ≠ 0x0D
        ∧ (0xEF : DataAddr) ≠ 0x00) ∧ (0x0E : DataAddr) ≠ 0x0D ∧ (0x0A : DataAddr) ≠ 0x0B := by decide

/-- x0 and y1 R0 and R15, y0 and x1 one register. -/
theorem witness_AddThenAdcAddsBytes :
    (0 : Reg) ≠ 12 ∧ (0 : Reg) ≠ 13 ∧ (1 : Reg) ≠ 12 ∧ (1 : Reg) ≠ 13 ∧ (1 : Reg) ≠ 0 ∧ (15 : Reg) ≠ 0
      ∧ ∀ r, r ∈ ([0, 1, 1, 15] : List Reg) → State.reset.readsInput (regCell r) = false := by decide

/-- Eleven registers with I/O to the environment, and all sixteen under `plain` with plain I/O cells. -/
theorem witness_ExchangeTwiceRestores :
    (State.reset.exrFault (exrCount 11) = none ∧ ∀ k, k < exrCount 11 → State.reset.readsInput (BitVec.ofNat 8 k) = false)
      ∧ State.exrFault (State.resetWith { plainIo with otherPcWrites := .plain }) (exrCount 0) = none
      ∧ ∀ k, k < exrCount 0 →
        State.readsInput (State.resetWith { plainIo with otherPcWrites := .plain }) (BitVec.ofNat 8 k) = false := by decide

/-- The later state may be the state after the call itself. -/
theorem witness_ReturnResumesAfterTheCall :
    (base .refuse 4).params.stackDepth ≤ 5
      ∧ Instr.decRy 12 ∈ ([.movRxRy 12 0, .movRxN 12 7, .incRy 12, .decRy 12] : List Instr)
      ∧ ∃ t u : State, exec (.decRy 12) (base .refuse 4) = .next t ∧ u.sp = t.sp
        ∧ ∀ a, inStackLevel 4 a → u.cell a = t.cell a :=
  ⟨by decide, by decide, _, _, rfl, rfl, fun _ _ => rfl⟩

theorem witness_SelfJumpChangesNothing : (State.reset.placeWord 0xFFF).ended = true := by decide

/-- On R11 where IN and OUT are the second locations, and on R0. -/
theorem witness_IdiomsDoWhatTheyStandFor :
    State.reset.Inv ∧ ((0 : Reg) ≠ 12 ∧ (0 : Reg) ≠ 13 ∧ State.reset.readsInput (regCell 0) = false
        ∧ regCell 0 ≠ State.reset.outAddr)
      ∧ State.Inv (State.resetWith { recommendedParams with resetIopos := true })
      ∧ State.readsInput (State.resetWith { recommendedParams with resetIopos := true }) (regCell 11) = false
      ∧ regCell 11 ≠ State.outAddr (State.resetWith { recommendedParams with resetIopos := true }) := by decide

/-! The same hypothesis in the other instructions of that shape, each at the registers beside JSR and PCL. -/

theorem witness_AddRegistersWithCarry : State.reset.pcWriteFault (regCell 11) .other = none := by decide

theorem witness_SubtractRegisters : State.reset.pcWriteFault (regCell 14) .other = none := by decide

theorem witness_SubtractRegistersWithBorrow : (base .plain 0).pcWriteFault (regCell 12) .other = none := by decide

theorem witness_LogicOnRegisters : (base .trigger 4).pcWriteFault (regCell 12) .other = none := by decide

theorem witness_DecrementAndSkipIfZero : (base .trigger 5).pcWriteFault (regCell 13) .other = none := by decide

/-- One level left, for a call through INC or DEC of JSR. -/
theorem witness_IncrementAndDecrement : (base .refuse 4).sp < (base .refuse 4).params.stackDepth := by decide

theorem witness_StepKeepsTheInvariant :
    (base .refuse 5).Inv ∧ ∃ t, step (base .refuse 5) = .next t := ⟨by decide, _, rfl⟩

theorem witness_SubThenSbbSubtractsBytes :
    (14 : Reg) ≠ 12 ∧ (14 : Reg) ≠ 13 ∧ (15 : Reg) ≠ 12 ∧ (15 : Reg) ≠ 13 ∧ (15 : Reg) ≠ 14 ∧ (12 : Reg) ≠ 14
      ∧ ∀ r, r ∈ ([14, 15, 13, 12] : List Reg) → State.reset.readsInput (regCell r) = false := by decide

end Sys2Proof.Tests
end

section
/-!
One step of the machine (R15): the instruction it fetches and the state that instruction executes in.
-/
namespace Sys2Proof.Machine

/-- The fetched instruction is what program memory at `pc` decodes to (R15). -/
theorem State.fetched_eq_decode_read (s : State) : s.fetched = decode (s.pm.read s.pc.toNat) := rfl

/-- An instruction executes with the incremented `pc`, and the fetch changes nothing else (R15, R16). -/
theorem State.afterFetch_eq (s : State) : s.afterFetch = { s with pc := s.pc + 1 } := rfl

/-- A step executes the fetched instruction in the state after the fetch, whichever instruction that is. -/
theorem step_of_fetched_eq {s : State} {i : Instr} (hi : s.fetched = i) : step s = exec i s.afterFetch :=
  congrArg (exec · s.afterFetch) hi

/-- Settles O4: the word at `pc` is the one fetched, and it is executed after the increment. -/
theorem stepRunsTheDecodedInstruction : Obligations.StepRunsTheDecodedInstruction := by
  intro s i hdecode
  have hfetched : s.fetched = i := s.fetched_eq_decode_read.trans hdecode
  rw [step_of_fetched_eq hfetched, s.afterFetch_eq]

end Sys2Proof.Machine
end

section
/-!
MOV PC,NN: the nibbles of its literal, its word in those nibbles, and what it answers.
-/
namespace Sys2Proof

/-- The word of format NN is the opcode and the literal's two nibbles (R61). -/
theorem wordNN_append (op hi lo : BitVec 4) : wordNN op (hi ++ lo) = op ++ hi ++ lo := by
  rw [wordNN, BitVec.append_assoc, BitVec.cast_eq]

namespace Machine

@[simp] theorem nnLow_append (hi lo : Nibble) : nnLow (hi ++ lo) = lo :=
  BitVec.extractLsb'_append_eq_right

@[simp] theorem nnHigh_append (hi lo : Nibble) : nnHigh (hi ++ lo) = hi :=
  BitVec.extractLsb'_append_eq_left

/-- R14 and R15 are never the OUT location, so MOV PC,NN stores both nibbles raw (R127, R45). -/
theorem exec_movPcNn (s : State) (nn : BitVec 8) :
    exec (.movPcNn nn) s = .next ((s.setCell 0x0E (nnLow nn)).setCell 0x0F (nnHigh nn)) := by
  have hpcm : s.writeCell 0x0E (nnLow nn) = s.setCell 0x0E (nnLow nn) :=
    s.writeCell_elsewhere _ (by decide) (by decide)
  have hpch (t : State) : t.writeCell 0x0F (nnHigh nn) = t.setCell 0x0F (nnHigh nn) :=
    t.writeCell_elsewhere _ (by decide) (by decide)
  calc exec (.movPcNn nn) s
      = .next ((s.writeCell 0x0E (nnLow nn)).writeCell 0x0F (nnHigh nn)) := rfl
    _ = .next ((s.setCell 0x0E (nnLow nn)).setCell 0x0F (nnHigh nn)) := by rw [hpcm, hpch]

/-- Settles O14: the two cells written are the literal's nibbles, whatever IOPOS is. -/
theorem movPcLoadsPcmAndPch : Obligations.MovPcLoadsPcmAndPch := by
  intro s hi lo
  refine ⟨wordNN_append _ hi lo, ?_⟩
  rw [exec_movPcNn, nnLow_append, nnHigh_append]

end Machine
end Sys2Proof
end

section
/-!
JR NN: its offset as an integer, the target it jumps to, and what it answers.
-/
namespace Sys2Proof.Machine

/-- JR's offset is the signed literal, reduced modulo 4096 (R63, R140). -/
theorem toNat_jrOffset (nn : BitVec 8) : ((jrOffset nn).toNat : Int) = nn.toInt % 4096 := by
  have hnonneg : 0 ≤ nn.toInt % (2 ^ 12 : Nat) := Int.emod_nonneg _ (by decide)
  rw [jrOffset, BitVec.signExtend, BitVec.toNat_ofInt, Int.toNat_of_nonneg hnonneg]
  rfl

/-- Adding JR's offset to a program address adds the signed literal modulo 4096 (R16, R140). -/
theorem toNat_add_jrOffset (a : ProgAddr) (nn : BitVec 8) :
    ((a + jrOffset nn).toNat : Int) = ((a.toNat : Int) + nn.toInt) % 4096 := by
  calc ((a + jrOffset nn).toNat : Int)
      = ((a.toNat : Int) + ((jrOffset nn).toNat : Int)) % 4096 := by
        rw [BitVec.toNat_add, Int.natCast_emod, Int.natCast_add]; rfl
    _ = ((a.toNat : Int) + nn.toInt) % 4096 := by rw [toNat_jrOffset, Int.add_emod_emod]

/-- JR answers the state with its offset added to `pc` (R140). -/
theorem exec_jrNn (s : State) (nn : BitVec 8) :
    exec (.jrNn nn) s = .next { s with pc := s.pc + jrOffset nn } := rfl

/-- Settles O15: the one target is `pc` plus the sign-extended literal. -/
theorem jumpRelative : Obligations.JumpRelative := fun s nn =>
  ⟨rfl, s.pc + jrOffset nn, exec_jrNn s nn, toNat_add_jrOffset s.pc nn⟩

end Sys2Proof.Machine
end

section
/-!
CP R0,N: the flags of a subtraction with no borrow in, the read of R0, and what it answers.
-/
namespace Sys2Proof.Machine

/-- With no borrow in, C says that the first operand is at least the second, unsigned (R103, R161). -/
theorem subNibbles_c (a b : Nibble) : (subNibbles a b false).c = decide (b.toNat ≤ a.toNat) := by
  have hno_borrow : (a.toNat : Int) - b.toNat - (false.toNat : Nat) ≥ 0 ↔ b.toNat ≤ a.toNat := by
    rw [Bool.toNat_false]; omega
  exact decide_eq_decide.mpr hno_borrow

/-- With no borrow in, the result is the difference modulo 16 (R103, R161). -/
theorem subNibbles_r (a b : Nibble) : (subNibbles a b false).r = a - b := by
  calc (subNibbles a b false).r
      = BitVec.ofInt 4 ((a.toNat : Int) - b.toNat) := congrArg (BitVec.ofInt 4) (Int.sub_zero _)
    _ = BitVec.ofInt 4 a.toNat + -BitVec.ofInt 4 b.toNat := by
        rw [Int.sub_eq_add_neg, BitVec.ofInt_add, BitVec.ofInt_neg]
    _ = a - b := by simp [BitVec.sub_eq_add_neg]

/-- With no borrow in, Z says that the operands are equal (R103, R161). -/
theorem subNibbles_z (a b : Nibble) : (subNibbles a b false).z = decide (a = b) := by
  calc (subNibbles a b false).z
      = decide (a - b = 0) := congrArg isZero (subNibbles_r a b)
    _ = decide (a = b) := decide_eq_decide.mpr sub_eq_zero

/-- Reading one cell that is not the active IN location takes no input (R44). -/
theorem State.afterReads_singleton (s : State) {a : DataAddr} (h : s.readsInput a = false) : s.afterReads [a] = s := by
  simp [State.afterReads, h]

/-- CP R0,N answers the state with the C and Z of `R0 - N` (R161). -/
theorem exec_cpR0N (s : State) (n : Nibble) :
    exec (.cpR0N n) s
      = .next { s with c := (subNibbles (s.cell 0x00) n false).c, z := (subNibbles (s.cell 0x00) n false).z } := by
  have hnot_in : s.readsInput (regCell 0) = false := s.readsInput_elsewhere (by decide) (by decide)
  have hr0 : s.reg 0 = s.cell 0x00 := s.reg_zero
  calc exec (.cpR0N n) s
      = .next (((s.afterReads [regCell 0]).setC (subNibbles (s.reg 0) n false).c).setZ
          (subNibbles (s.reg 0) n false).z) := rfl
    _ = .next ((s.setC (subNibbles (s.cell 0x00) n false).c).setZ (subNibbles (s.cell 0x00) n false).z) := by
        rw [s.afterReads_singleton hnot_in, hr0]

/-- Settles O19: C and Z of the subtraction are the two comparisons. -/
theorem compareR0 : Obligations.CompareR0 := by
  intro s n
  refine ⟨rfl, ?_⟩
  rw [exec_cpR0N, subNibbles_c, subNibbles_z]

end Sys2Proof.Machine
end

section
/-!
Decoding undoes encoding, format by format, and encoding undoes decoding, so a word and its instruction determine each other.
-/
namespace Sys2Proof

/-! Under opcode 0 the sub-opcode decides (R64). -/

@[simp] theorem decode_wordSub (sub y : BitVec 4) : decode (wordSub sub y) = decodeSub (wordSub sub y) := by
  simp [decode, wordSub_eq]

@[simp] theorem decode_wordGM (sub : BitVec 4) (g m : BitVec 2) :
    decode (wordGM sub g m) = decodeSub (wordGM sub g m) := by
  simp [decode]

@[simp] theorem fieldX_wordSub (sub y : BitVec 4) : fieldX (wordSub sub y) = sub := fieldX_wordXY 0 sub y
@[simp] theorem fieldY_wordSub (sub y : BitVec 4) : fieldY (wordSub sub y) = y := fieldY_wordXY 0 sub y

/-- Settles O1: each format's word has the instruction's own fields, and its opcode or sub-opcode names the instruction. -/
theorem decodeOfEncode : Obligations.DecodeOfEncode := by
  intro i
  cases i
  -- formats RR and RN
  case addRxRy | adcRxRy | subRxRy | sbbRxRy | orRxRy | andRxRy | xorRxRy | movRxRy | movRxN | movXyR0 | movR0Xy =>
    simp [encode, decode]
  -- format NN
  case movNnR0 | movR0Nn | movPcNn | jrNn => simp [encode, decode]
  -- formats 0N and 0Y
  case cpR0N | addR0N | incRy | decRy | dszRy | orR0N | andR0N | xorR0N | exrN | rrcRy | retR0N =>
    simp [encode, decodeSub]
  -- formats 0GM and 0FM
  case bitRgM | bsetRgM | bclrRgM | btgRgM | skipFM => simp [encode, decodeSub]

/-! A word is made of its fields (R60, R62). -/

theorem wordXY_fields (w : InstrWord) : wordXY (fieldOp w) (fieldX w) (fieldY w) = w := by
  apply BitVec.eq_of_toNat_eq
  rw [wordXY_toNat, fieldOp_toNat, fieldX_toNat, fieldY_toNat]
  omega

theorem wordNN_fields (w : InstrWord) : wordNN (fieldOp w) (fieldNN w) = w := by
  apply BitVec.eq_of_toNat_eq
  rw [wordNN_toNat, fieldOp_toNat, fieldNN_toNat]
  omega

theorem wordSub_fields {w : InstrWord} (h : fieldOp w = 0) : wordSub (fieldX w) (fieldY w) = w := by
  rw [wordSub_eq, ← h, wordXY_fields]

theorem wordGM_fields {w : InstrWord} (h : fieldOp w = 0) : wordGM (fieldX w) (fieldG w) (fieldM w) = w := by
  have hop : w.toNat / 256 = 0 := by rw [← fieldOp_toNat, h]; rfl
  apply BitVec.eq_of_toNat_eq
  rw [wordGM_toNat, fieldX_toNat, fieldG_toNat, fieldM_toNat]
  omega

@[simp] theorem bitRegBits_of (g : BitVec 2) : bitRegBits (bitRegOf g) = g := by revert g; decide
@[simp] theorem condBits_of (f : BitVec 2) : condBits (condOf f) = f := by revert f; decide

/-- Encoding undoes the sub-opcode table R66. -/
theorem encode_decodeSub {w : InstrWord} (h : fieldOp w = 0) : encode (decodeSub w) = w := by
  have hy := wordSub_fields h
  have hgm := wordGM_fields h
  unfold decodeSub
  split
  case h_10 hx | h_11 hx | h_12 hx | h_13 hx => rw [encode, bitRegBits_of, ← hx, hgm]
  -- the last row is the one code the fifteen others leave
  case h_16 =>
    have hx : fieldX w = 15 := by simp only [imp_false] at *; bv_omega
    rw [hx] at hgm
    rw [encode, condBits_of]
    exact hgm
  all_goals
    rename_i hx
    rw [encode, ← hx, hy]

/-- Encoding undoes decoding: each row of the tables R65 and R66 gives back the code that selected it. -/
theorem encode_decode (w : InstrWord) : encode (decode w) = w := by
  have hxy := wordXY_fields w
  have hnn := wordNN_fields w
  unfold decode
  split
  case h_1 hop => exact encode_decodeSub hop
  case h_13 hop | h_14 hop | h_15 hop => rw [encode, ← hop, hnn]
  -- the last row is the one code the fifteen others leave
  case h_16 =>
    have hop : fieldOp w = 15 := by simp only [imp_false] at *; bv_omega
    rw [hop] at hnn
    exact hnn
  all_goals
    rename_i hop
    rw [encode, ← hop, hxy]

/-- Settles O2: the word is the one its instruction encodes to, and no other instruction has it, as decoding undoes encoding. -/
theorem everyWordIsOneInstruction : Obligations.EveryWordIsOneInstruction := by
  intro w
  refine ⟨encode_decode w, fun i hi => ?_⟩
  rw [← hi, decodeOfEncode i]

/-- Settles O3: the decoder run on the sixteen words. -/
theorem exampleWordsDecode : Obligations.ExampleWordsDecode := by
  unfold Obligations.ExampleWordsDecode
  decide

end Sys2Proof
end

section
/-!
Arithmetic and logic on two registers: the results and flags as the rules word them, and what the seven instructions answer.
-/
namespace Sys2Proof.Machine

/-! Results and flags. -/

theorem isZero_eq (r : Nibble) : isZero r = decide (r.toNat = 0) :=
  decide_eq_decide.mpr BitVec.toNat_inj.symm

theorem isZero_ofNat (n : Nat) : isZero (BitVec.ofNat 4 n) = decide (n % 16 = 0) := by
  rw [isZero_eq, BitVec.toNat_ofNat]

/-- With no carry in, the result is the sum modulo 16 (R101, R162). -/
theorem addNibbles_r (a b : Nibble) : (addNibbles a b false).r = a + b := by
  simp [addNibbles, BitVec.ofNat_add]

/-- Z of a sum (R101, R102, R162). -/
theorem addNibbles_z (a b : Nibble) (cin : Bool) :
    (addNibbles a b cin).z = decide ((a.toNat + b.toNat + cin.toNat) % 16 = 0) := isZero_ofNat _

/-- The borrow as a number is 1 where C is 0 (R104). -/
theorem toNat_borrow (c : Bool) : (!c).toNat = if c then 0 else 1 := by cases c <;> rfl

theorem toNat_carry (c : Bool) : c.toNat = if c then 1 else 0 := by cases c <;> rfl

/-- C of a difference is 1 when it does not borrow (R103, R104). -/
theorem subNibbles_c_borrow (a b : Nibble) (bin : Bool) :
    (subNibbles a b bin).c = decide (b.toNat + bin.toNat ≤ a.toNat) :=
  decide_eq_decide.mpr (by omega)

/-- The difference modulo 16, computed without going below 0 (R104). -/
theorem subNibbles_r_borrow (a b : Nibble) (bin : Bool) :
    (subNibbles a b bin).r = BitVec.ofNat 4 (a.toNat + 32 - b.toNat - bin.toNat) := by
  have hb := b.isLt
  have hbin := bin.toNat_le
  apply BitVec.eq_of_toNat_eq
  simp only [subNibbles, BitVec.toNat_ofInt, BitVec.toNat_ofNat]
  omega

theorem subNibbles_z_borrow (a b : Nibble) (bin : Bool) :
    (subNibbles a b bin).z = decide ((a.toNat + 32 - b.toNat - bin.toNat) % 16 = 0) := by
  rw [← isZero_ofNat, ← subNibbles_r_borrow]
  rfl

/-! The two ends of these instructions. -/

/-- Where the write of RX is allowed, the arithmetic instructions write the flags and RX (R100). -/
theorem endArith_next {s : State} {x : Reg} (h : s.pcWriteFault (regCell x) .other = none) (y : Reg) (q : AluResult) :
    endArith s x y q = .next
      (State.putCell { s.afterReads [regCell x, regCell y] with c := q.c, z := q.z, v := q.v } (regCell x) q.r .other) :=
  endWithReg_next h (by simp) (by simp) (by simp) _

/-- Where the write of RX is allowed, the logic instructions write Z and RX (R105). -/
theorem endLogic_next {s : State} {x : Reg} (h : s.pcWriteFault (regCell x) .other = none) (y : Reg) (r : Nibble) :
    endLogic s x y r = .next
      (State.putCell { s.afterReads [regCell x, regCell y] with z := decide (r.toNat = 0) } (regCell x) r .other) := by
  rw [← isZero_eq]
  exact endWithReg_next h (by simp) (by simp) (by simp) _

/-- Settles O5: the sum with no carry in. -/
theorem addRegisters : Obligations.AddRegisters := by
  intro s x y
  refine ⟨rfl, fun h => (endArith_next h y _).trans ?_⟩
  rw [addNibbles_r, addNibbles_z]
  simp [addNibbles, signedOverflow]

/-- Settles O6: the sum with C as carry in. -/
theorem addRegistersWithCarry : Obligations.AddRegistersWithCarry := by
  intro s x y
  refine ⟨rfl, fun h => (endArith_next h y _).trans ?_⟩
  rw [addNibbles_z]
  simp only [addNibbles, signedOverflow, toNat_carry]

/-- Settles O7: the difference with no borrow in. -/
theorem subtractRegisters : Obligations.SubtractRegisters := by
  intro s x y
  refine ⟨rfl, fun h => (endArith_next h y _).trans ?_⟩
  rw [subNibbles_r, subNibbles_c, subNibbles_z]
  simp [subNibbles, signedOverflow]

/-- Settles O8: the difference with NOT C as borrow in. -/
theorem subtractRegistersWithBorrow : Obligations.SubtractRegistersWithBorrow := by
  intro s x y
  refine ⟨rfl, fun h => (endArith_next h y _).trans ?_⟩
  rw [subNibbles_r_borrow, subNibbles_c_borrow, subNibbles_z_borrow]
  simp only [subNibbles, signedOverflow, toNat_borrow]

/-- Settles O9: the three differ in the result alone. -/
theorem logicOnRegisters : Obligations.LogicOnRegisters := fun _ _ y =>
  ⟨rfl, rfl, rfl, fun h => ⟨endLogic_next h y _, endLogic_next h y _, endLogic_next h y _⟩⟩

end Sys2Proof.Machine
end

section
/-!
The instructions that write one register: where a write of class named jumps or calls, and the values and flags of INC, DEC,
DSZ and RRC.
-/
namespace Sys2Proof.Machine

/-! JSR and PCL among the registers. -/

theorem regCell_eq_jsrCell {x : Reg} : regCell x = jsrCell ↔ x = 12 := regCell_inj (j := 12)
theorem regCell_eq_pclCell {x : Reg} : regCell x = pclCell ↔ x = 13 := regCell_inj (j := 13)

/-- A named write is followed by the jump where it wrote PCL and by the call where it wrote JSR (R143). -/
theorem State.putCell_named (s : State) (x : Reg) (v : Nibble) :
    s.putCell (regCell x) v .named =
      if x = 13 then (s.writeCell (regCell x) v).jump
      else if x = 12 then (s.writeCell (regCell x) v).call
      else s.writeCell (regCell x) v := by
  simp only [State.putCell, State.pcWriteEffect, State.triggers, regCell_eq_jsrCell, regCell_eq_pclCell]
  by_cases h13 : x = 13
  · simp [h13]
  · by_cases h12 : x = 12
    · simp [h12]
    · simp only [h13, h12]
      simp

/-- A named write of a register completes where, on JSR, the stack has room. -/
theorem endWithReg_named {s t : State} {x : Reg} (h : x = 12 → s.sp < s.params.stackDepth) (hpc : t.pc = s.pc)
    (hsp : t.sp = s.sp) (hp : t.params = s.params) (v : Nibble) :
    endWithReg t x v .named = .next
      (let u := t.writeCell (regCell x) v
       if x = 13 then u.jump else if x = 12 then u.call else u) := by
  rw [endWithReg_next (State.named_no_fault h) hpc hsp hp, State.putCell_named]

/-- Settles O10: neither form touches a flag before its named write. -/
theorem movToRegister : Obligations.MovToRegister := fun _ _ _ _ =>
  ⟨rfl, rfl, fun h => ⟨endWithReg_named h (by simp) (by simp) (by simp) _, endWithReg_named h rfl rfl rfl _⟩⟩

/-! Values and flags of INC, DEC and DSZ. -/

theorem incNibble_eq (a : Nibble) : incNibble a = a + 1 := by revert a; decide
theorem decNibble_eq (a : Nibble) : decNibble a = a - 1 := by revert a; decide
theorem isZero_add_one (a : Nibble) : isZero (a + 1) = decide (a = 15) := by revert a; decide
theorem isZero_sub_one (a : Nibble) : isZero (a - 1) = decide (a = 1) := by revert a; decide
theorem decCarry_sub_one (a : Nibble) : decCarry (a - 1) = decide (a ≠ 0) := by revert a; decide

/-- INC ends with the named write of the next value, its flags those of that value (R163). -/
theorem exec_incRy (s : State) (y : Reg) :
    exec (.incRy y) s = endWithReg
      { s.afterReads [regCell y] with c := decide (s.reg y = 15), z := decide (s.reg y = 15) } y (s.reg y + 1) .named := by
  rw [← isZero_add_one, ← incNibble_eq]
  rfl

/-- DEC ends with the named write of the value before, its flags those of that value (R164). -/
theorem exec_decRy (s : State) (y : Reg) :
    exec (.decRy y) s = endWithReg
      { s.afterReads [regCell y] with c := decide (s.reg y ≠ 0), z := decide (s.reg y = 1) } y (s.reg y - 1) .named := by
  rw [← isZero_sub_one, ← decCarry_sub_one, ← decNibble_eq]
  rfl

/-- Settles O11: the flags are those of the new value, then the named write. -/
theorem incrementAndDecrement : Obligations.IncrementAndDecrement := by
  intro s y
  refine ⟨rfl, rfl, fun h => ⟨?_, ?_⟩⟩
  · rw [exec_incRy]
    exact endWithReg_named h (by simp) (by simp) (by simp) _
  · rw [exec_decRy]
    exact endWithReg_named h (by simp) (by simp) (by simp) _

/-- DSZ skips exactly where its result is 0 and its write starts no transfer (R145, R165). -/
theorem exec_dszRy (s : State) (y : Reg) :
    exec (.dszRy y) s =
      finish (s.pcWriteFault (regCell y) .other)
        (let t := (s.afterReads [regCell y]).putCell (regCell y) (s.reg y - 1) .other
         if s.reg y = 1 ∧ s.triggers (regCell y) .other = false then t.skip 1 else t) := by
  simp only [exec, execDszRy, decNibble_eq, sub_eq_zero,
    State.pcWriteFault_congr (s := s) (t := s.afterReads [regCell y]) _ _ (by simp) (by simp) (by simp),
    State.triggers_congr (s := s) (t := s.afterReads [regCell y]) _ _ (by simp)]

/-- A class other write of a register starts a transfer exactly on JSR and PCL under OTHER_PC_WRITES = trigger (R143). -/
theorem State.triggers_other_eq_false (s : State) (y : Reg) :
    s.triggers (regCell y) .other = false ↔ ¬ ((y = 12 ∨ y = 13) ∧ s.params.otherPcWrites = .trigger) := by
  simp [State.triggers, regCell_eq_jsrCell, regCell_eq_pclCell]

/-- Settles O18: the write is allowed, and the skip is the one of `exec_dszRy`. -/
theorem decrementAndSkipIfZero : Obligations.DecrementAndSkipIfZero := by
  intro s y
  refine ⟨rfl, fun h => ?_⟩
  simp only [exec_dszRy, h, s.triggers_other_eq_false y]
  rfl

/-- A nibble whose bits are the rotated ones is the rotation (R201). -/
theorem eq_rotateRight {a r : Nibble} {c : Bool} (h3 : r.getLsbD 3 = c) (h2 : r.getLsbD 2 = a.getLsbD 3)
    (h1 : r.getLsbD 1 = a.getLsbD 2) (h0 : r.getLsbD 0 = a.getLsbD 1) : r = rotateRight a c := by
  revert a r c
  decide

/-- Settles O25: the four bits fix the value written, which is the model's rotation. -/
theorem rotateRightThroughCarry : Obligations.RotateRightThroughCarry := by
  intro s y r
  refine ⟨rfl, fun h h3 h2 h1 h0 => ?_⟩
  rw [eq_rotateRight h3 h2 h1 h0]
  exact endWithReg_next h (by simp) (by simp) (by simp) _

end Sys2Proof.Machine
end

section
/-!
The instructions with a fixed cell or none: R0 with a literal, the bit instructions, SKIP and RET, and the memory MOVs; what each
answers.
-/
namespace Sys2Proof.Machine

/-! R0's cell is plain. -/

@[simp] theorem regCell_zero : regCell 0#4 = 0#8 := rfl

/-- Reading R0's cell is never a read of the environment (R44). -/
@[simp] theorem State.readsInput_zero (s : State) : s.readsInput 0#8 = false :=
  s.readsInput_elsewhere (by decide) (by decide)

/-- Writing R0's cell is the raw store (R45). -/
@[simp] theorem State.writeCell_zero (s : State) (v : Nibble) : s.writeCell 0#8 v = s.setCell 0#8 v :=
  s.writeCell_elsewhere v (by decide) (by decide)

/-- A read of a cell that is not the active IN location is raw (R44). -/
theorem State.readCell_plain {s : State} {a : DataAddr} (h : s.readsInput a = false) : s.readCell a = s.cell a := by
  simp [State.readCell, h]

/-! R0 with a literal. -/

/-- ADD R0,N answers the state with the sum, C and Z (R162). -/
theorem exec_addR0N (s : State) (n : Nibble) :
    exec (.addR0N n) s = .next
      (State.setCell { s with c := (addNibbles (s.cell 0x00) n false).c, z := (addNibbles (s.cell 0x00) n false).z } 0x00
        (s.cell 0x00 + n)) := by
  rw [← addNibbles_r]
  simp [exec, execAddR0N, State.afterReads_singleton]
  rfl

/-- Settles O20: C and Z of the sum in the rule's words. -/
theorem addLiteralToR0 : Obligations.AddLiteralToR0 := by
  intro s n
  refine ⟨rfl, (exec_addR0N s n).trans ?_⟩
  rw [addNibbles_z]
  rfl

/-- The end of OR, AND, XOR R0,N is a raw store of R0 with C and Z (R166 to R168). -/
theorem endLiteralLogic_eq (s : State) (r : Nibble) (carry : Bool) :
    endLiteralLogic s r carry = .next (State.setCell { s with c := carry, z := decide (r.toNat = 0) } 0x00 r) := by
  rw [← isZero_eq]
  simp [endLiteralLogic, State.afterReads_singleton]
  rfl

/-- Settles O21: the three differ in the result and in C. -/
theorem logicOnR0 : Obligations.LogicOnR0 := by
  intro s n
  have hr0 : s.reg 0 = s.cell 0x00 := s.reg_zero
  rw [← hr0]
  exact ⟨rfl, rfl, rfl, endLiteralLogic_eq s _ _, endLiteralLogic_eq s _ _, endLiteralLogic_eq s _ _⟩

/-! The bit instructions. -/

/-- R0, R1 and R2 are read raw by BIT (R182). -/
theorem exec_bitRgM_plain {s : State} {g : BitReg} (h : s.readsInput (s.testAddr g) = false) (m : BitVec 2) :
    exec (.bitRgM g m) s = .next { s with z := !(s.cell (s.testAddr g)).getLsbD m.toNat } := by
  simp [exec, execBitRgM, State.readCell_plain h, State.afterReads_singleton _ h]
  rfl

/-- Settles O23: only RS, the active IN register, can be a read of the environment. -/
theorem testBitOfRegister : Obligations.TestBitOfRegister := by
  intro s m
  refine ⟨rfl, rfl, rfl, rfl, ?_, ?_, ?_, rfl⟩
  · exact exec_bitRgM_plain (g := .r0) (s.readsInput_elsewhere (a := 0x00) (by decide) (by decide)) m
  · exact exec_bitRgM_plain (g := .r1) (s.readsInput_elsewhere (a := 0x01) (by decide) (by decide)) m
  · exact exec_bitRgM_plain (g := .r2) (s.readsInput_elsewhere (a := 0x02) (by decide) (by decide)) m

/-- The cell BSET, BCLR and BTG change is never the active IN location (R24, R182). -/
theorem State.readsInput_modifyAddr (s : State) (g : BitReg) : s.readsInput (s.modifyAddr g) = false := by
  cases g
  case rs =>
    rcases s.outAddr_cases with h | h <;>
      exact s.readsInput_elsewhere (by rw [State.modifyAddr, h]; decide) (by rw [State.modifyAddr, h]; decide)
  all_goals exact s.readsInput_elsewhere (by simp [State.modifyAddr]) (by simp [State.modifyAddr])

/-- The end of BSET, BCLR, BTG writes the changed raw value of the cell and reads no input (R184). -/
theorem endModify_eq (s : State) (g : BitReg) (f : Nibble → Nibble) :
    endModify s g f = .next (s.writeCell (s.modifyAddr g) (f (s.cell (s.modifyAddr g)))) := by
  have h := s.readsInput_modifyAddr g
  simp [endModify, State.readCell_plain h, State.afterReads_singleton _ h]

/-! A nibble whose bits are the changed ones is the changed value (R184 to R186). -/

theorem eq_setBit {v r : Nibble} {m : BitVec 2} (h : ∀ j, j < 4 → r.getLsbD j = (decide (j = m.toNat) || v.getLsbD j)) :
    r = setBit v m := by
  revert v r m; decide

theorem eq_clearBit {v r : Nibble} {m : BitVec 2} (h : ∀ j, j < 4 → r.getLsbD j = (!decide (j = m.toNat) && v.getLsbD j)) :
    r = clearBit v m := by
  revert v r m; decide

theorem eq_toggleBit {v r : Nibble} {m : BitVec 2} (h : ∀ j, j < 4 → r.getLsbD j = (decide (j = m.toNat) ^^ v.getLsbD j)) :
    r = toggleBit v m := by
  revert v r m; decide

/-- Settles O24: the bits fix the value written, which is the model's changed value of the cell RG names. -/
theorem changeBitOfRegister : Obligations.ChangeBitOfRegister := by
  intro s g m a set clear toggle ha hset hclear htoggle
  have haddr : a = s.modifyAddr g := by rw [ha]; cases g <;> rfl
  subst haddr
  rw [eq_setBit hset, eq_clearBit hclear, eq_toggleBit htoggle]
  refine ⟨?_, ?_, ?_, endModify_eq s g (setBit · m), endModify_eq s g (clearBit · m), endModify_eq s g (toggleBit · m)⟩
  · cases g <;> rfl
  · cases g <;> rfl
  · cases g <;> rfl

/-! SKIP and RET. -/

/-- SKIP's count as a 12-bit number (R68). -/
theorem ofNat_skipCount (m : BitVec 2) : BitVec.ofNat 12 (skipCount m) = if m = 0 then 4 else m.setWidth 12 := by
  revert m; decide

/-- SKIP answers the state, with the count added to `pc` where the condition holds (R203). -/
theorem exec_skipFM (s : State) (f : Cond) (m : BitVec 2) :
    exec (.skipFM f m) s
      = .next (if s.condHolds f = true then { s with pc := s.pc + (if m = 0 then 4 else m.setWidth 12) } else s) := by
  rw [← ofNat_skipCount]
  rfl

/-- Settles O17: the four conditions in the rule's words. -/
theorem skipOnCondition : Obligations.SkipOnCondition := by
  intro s m
  refine ⟨rfl, rfl, rfl, rfl, exec_skipFM s .c m, ?_, exec_skipFM s .z m, ?_⟩
  · simpa [State.condHolds] using exec_skipFM s .nc m
  · simpa [State.condHolds] using exec_skipFM s .nz m

/-- The address of a stack cell of the five levels that fit in page 1 (R21, R22). -/
theorem stackCell_toNat {level k : Nat} (hlevel : level < 5) (hk : k < 3) :
    (stackCell level k).toNat = 0x10 + 3 * level + k := by
  rw [stackCell, BitVec.toNat_ofNat]
  omega

/-- A stack cell is no register cell. -/
theorem stackCell_ne {level k : Nat} (hlevel : level < 5) (hk : k < 3) {a : DataAddr} (ha : a.toNat < 0x10) :
    stackCell level k ≠ a := by
  intro h
  have := stackCell_toNat hlevel hk
  rw [h] at this
  omega

/-- A store below the stack page leaves the return addresses alone. -/
theorem State.setCell_returnAddr (s : State) {a : DataAddr} (ha : a.toNat < 0x10) (v : Nibble) {level : Nat}
    (hlevel : level < 5) : (s.setCell a v).returnAddr level = s.returnAddr level := by
  simp [State.returnAddr, State.setCell_cell, stackCell_ne hlevel, ha]

/-- RET stops at SP = 0, and else answers the state with R0, SP and `pc` as the popped level gives them (R202). -/
theorem exec_retR0N (s : State) (n : Nibble) :
    exec (.retR0N n) s =
      finish (if s.sp = 0 then some (.stackUnderflow (s.pc - 1)) else none)
        (((s.setCell 0x00 n).setSp (s.sp - 1)).setPc ((s.setCell 0x00 n).returnAddr (s.sp - 1))) := by
  simp [exec, execRetR0N]
  rfl

/-- Settles O16: R0's cell is none of the popped ones. -/
theorem returnFromSubroutine : Obligations.ReturnFromSubroutine := by
  intro s n
  refine ⟨rfl, fun h => ?_, fun level h hlevel => ?_⟩
  · rw [exec_retR0N, if_pos h]
    rfl
  · rw [exec_retR0N, if_neg (by omega), h, Nat.add_sub_cancel, s.setCell_returnAddr (by decide) n hlevel]
    rfl

/-! The memory MOVs. -/

/-- The pair address is the one whose number is 16 times the high nibble plus the low one (R41). -/
theorem State.pairOf_toNat (s : State) (x y : Reg) :
    (s.pairOf x y).toNat = 16 * (s.reg x).toNat + (s.reg y).toNat := by
  rw [State.pairOf, pairAddr, BitVec.toNat_append, ← Nat.shiftLeft_add_eq_or_of_lt (s.reg y).isLt, Nat.shiftLeft_eq]
  omega

theorem State.eq_pairOf {s : State} {x y : Reg} {a : DataAddr} (h : a.toNat = 16 * (s.reg x).toNat + (s.reg y).toNat) :
    s.pairOf x y = a :=
  BitVec.eq_of_toNat_eq ((s.pairOf_toNat x y).trans h.symm)

/-- MOV [XY],R0 reads no input for R0 (R123). -/
theorem exec_movXyR0 (s : State) (x y : Reg) :
    exec (.movXyR0 x y) s = endWithStore (s.afterReads [regCell x, regCell y]) (s.pairOf x y) (s.cell 0x00) := by
  simp [exec, execMovXyR0, State.afterReads]

/-- MOV [NN],R0 reads no input (R125). -/
theorem exec_movNnR0 (s : State) (nn : DataAddr) : exec (.movNnR0 nn) s = endWithStore s nn (s.cell 0x00) := by
  simp [exec, execMovNnR0, State.afterReads]

/-- MOV R0,[XY] stops at its check or stores what it read in R0 (R124). -/
theorem exec_movR0Xy (s : State) (x y : Reg) :
    exec (.movR0Xy x y) s = finish (s.sfrFault (s.pairOf x y) .read)
      ((s.afterReads [regCell x, regCell y, s.pairOf x y]).setCell 0x00 (s.readCell (s.pairOf x y))) := by
  simp [exec, execMovR0Xy]

/-- MOV R0,[NN] stops at its check or stores what it read in R0 (R126). -/
theorem exec_movR0Nn (s : State) (nn : DataAddr) :
    exec (.movR0Nn nn) s = finish (s.sfrFault nn .read) ((s.afterReads [nn]).setCell 0x00 (s.readCell nn)) := by
  simp [exec, execMovR0Nn]

/-- Settles O12: where neither check stops it, the store is made. -/
theorem storeR0 : Obligations.StoreR0 := by
  intro s x y nn
  refine ⟨rfl, rfl, fun a ha hsfr hpc => ?_, fun hsfr hpc => ?_⟩
  · rw [exec_movXyR0, State.eq_pairOf ha]
    exact endWithStore_next hsfr hpc (by simp) (by simp) (by simp) _
  · rw [exec_movNnR0]
    exact endWithStore_next hsfr hpc rfl rfl rfl _

/-- Settles O13: where the check of page 15 does not stop it, the load is made. -/
theorem loadR0 : Obligations.LoadR0 := by
  intro s x y nn
  refine ⟨rfl, rfl, fun a ha hsfr => ?_, fun hsfr => ?_⟩
  · rw [exec_movR0Xy, State.eq_pairOf ha, hsfr]
    rfl
  · rw [exec_movR0Nn, hsfr]
    rfl

end Sys2Proof.Machine
end

section
/-!
Jumps and calls cell by cell: where they go, what a call pushes, and that RET takes it back.
-/
namespace Sys2Proof.Machine

/-- A program address is made of its three nibbles (R41, R142). -/
@[simp] theorem progAddr_progNibble (a : ProgAddr) :
    progAddr (progNibble a 2) (progNibble a 1) (progNibble a 0) = a := by
  simp only [progAddr, progNibble]
  apply BitVec.eq_of_getLsbD_eq
  intro i hi
  rw [BitVec.getLsbD_append, BitVec.getLsbD_append]
  simp only [BitVec.getLsbD_extractLsb']
  grind

/-- A jump after a write of PCL takes the value written as its low nibble (R141). -/
theorem State.setCell_pcl_jump (s : State) (v : Nibble) :
    (s.setCell pclCell v).jump = { s.setCell pclCell v with pc := s.cell 0x0F ++ s.cell 0x0E ++ v } := by
  have hpch : (s.setCell pclCell v).cell pchCell = s.cell 0x0F := by simp [State.setCell_cell, pchCell, pclCell]
  have hpcm : (s.setCell pclCell v).cell pcmCell = s.cell 0x0E := by simp [State.setCell_cell, pcmCell, pclCell]
  have hpcl : (s.setCell pclCell v).cell pclCell = v := by simp [State.setCell_cell]
  rw [State.jump, hpch, hpcm, hpcl]
  rfl

/-- Settles O26: PCL is no OUT location, so the write is raw, and then it jumps. -/
theorem writeOfPclJumps : Obligations.WriteOfPclJumps := by
  intro s n
  have hexec : exec (.movRxN 13 n) s = .next (s.writeCell pclCell n).jump :=
    endWithReg_named (s := s) (x := 13) (fun h => absurd h (by decide)) rfl rfl rfl n
  rw [hexec, s.writeCell_elsewhere n (by decide) (by decide), s.setCell_pcl_jump]
  rfl

/-! The cells of a stack level. -/

/-- The cells of a stack level are three addresses in a row (R22). -/
theorem inStackLevel_iff {level : Nat} (hlevel : level < 5) (a : DataAddr) :
    inStackLevel level a ↔ 0x10 + 3 * level ≤ a.toNat ∧ a.toNat ≤ 0x10 + 3 * level + 2 := by
  have h0 := stackCell_toNat hlevel (k := 0) (by decide)
  have h1 := stackCell_toNat hlevel (k := 1) (by decide)
  have h2 := stackCell_toNat hlevel (k := 2) (by decide)
  simp only [inStackLevel, ← BitVec.toNat_inj, h0, h1, h2]
  omega

/-- A register cell is in no stack level. -/
theorem not_inStackLevel {level : Nat} (hlevel : level < 5) {a : DataAddr} (ha : a.toNat < 0x10) :
    ¬ inStackLevel level a := by
  rw [inStackLevel_iff hlevel]
  omega

/-! The call. -/

/-- A call leaves the register cells alone. -/
theorem State.call_cell {s : State} (hsp : s.sp < 5) {a : DataAddr} (ha : a.toNat < 0x10) : s.call.cell a = s.cell a := by
  obtain ⟨-, -, -, -, -, -, -, -, -, hcells⟩ := s.call_frame
  exact hcells a (not_inStackLevel hsp ha)

/-- A call goes to PCH:PCM:JSR (R142). -/
theorem State.call_pc {s : State} (hsp : s.sp < 5) : s.call.pc = s.cell 0x0F ++ s.cell 0x0E ++ s.cell 0x0C := by
  have hpc : s.call.pc = progAddr (s.call.cell pchCell) (s.call.cell pcmCell) (s.call.cell jsrCell) := rfl
  rw [hpc, State.call_cell hsp (by decide), State.call_cell hsp (by decide), State.call_cell hsp (by decide)]
  rfl

/-- A call pushes `pc` as the return address of the level SP named (R142). -/
theorem State.call_returnAddr {s : State} (hsp : s.sp < 5) : s.call.returnAddr s.sp = s.pc := by
  have hne {j k : Nat} (hj : j < 3) (hk : k < 3) (h : j ≠ k) : stackCell s.sp j ≠ stackCell s.sp k := by
    intro he
    have := stackCell_toNat hsp hj
    rw [he, stackCell_toNat hsp hk] at this
    omega
  have h0 : s.call.cell (stackCell s.sp 0) = progNibble s.pc 0 := by
    simp [State.call, State.pushPc, State.setCell_cell, hne]
  have h1 : s.call.cell (stackCell s.sp 1) = progNibble s.pc 1 := by
    simp [State.call, State.pushPc, State.setCell_cell, hne]
  have h2 : s.call.cell (stackCell s.sp 2) = progNibble s.pc 2 := by
    simp [State.call, State.pushPc, State.setCell_cell]
  rw [State.returnAddr, h0, h1, h2, progAddr_progNibble]

/-- Settles O27: PCH, PCM and JSR lie below the stack page, so the push leaves the target alone. -/
theorem writeOfJsrCalls : Obligations.WriteOfJsrCalls := by
  intro s n hdepth
  refine ⟨fun hfull => ?_, fun hroom => ?_⟩
  · have hfault : s.pcWriteFault (regCell 12) .named = some (.stackOverflow (s.pc - 1)) := by
      simp [State.pcWriteFault, State.triggers, State.callFault, regCell_eq_jsrCell, hfull, State.instrAddr]
    simp only [exec, execMovRxN, endWithReg, hfault]
    rfl
  · have hsp : (s.setCell 0x0C n).sp < 5 := by rw [State.setCell_sp]; omega
    have hexec : exec (.movRxN 12 n) s = .next (s.writeCell jsrCell n).call :=
      endWithReg_named (fun _ => hroom) rfl rfl rfl n
    rw [s.writeCell_elsewhere n (by decide) (by decide)] at hexec
    obtain ⟨h1, h2, h3, h4, h5, h6, h7, h8, h9, hcells⟩ := (s.setCell 0x0C n).call_frame
    refine ⟨_, hexec, ?_, h1, ?_, State.call_returnAddr hsp, fun a hjsr hlevel => ?_, h2, h3, h4, h5, h6, h9, h7, h8⟩
    · exact (State.call_pc hsp).trans (by simp [State.setCell_cell])
    · exact (State.call_cell hsp (by decide)).trans (by simp [State.setCell_cell])
    · rw [← inStackLevel_iff (by omega)] at hlevel
      exact (hcells a hlevel).trans ((s.setCell_cell _ _ _).trans (if_neg hjsr))

end Sys2Proof.Machine
end

section
/-!
EXR: one exchange and the exchanges before it, cell by cell, with the event and the input they make.
-/
namespace Sys2Proof.Machine

/-! The two cells of an exchange, register i and 0xE0 + i for i below 16. -/

theorem toNat_ofNat_lt_16 {i : Nat} (hi : i < 16) : (BitVec.ofNat 8 i).toNat = i := by
  rw [BitVec.toNat_ofNat]; omega

theorem altCell_toNat {i : Nat} (hi : i < 16) : (altCell i).toNat = 0xE0 + i := by
  rw [altCell, BitVec.toNat_ofNat]; omega

/-- An alternate cell is no I/O location, so it is read and written raw (R24, R25). -/
theorem State.readsInput_altCell (s : State) {i : Nat} (hi : i < 16) : s.readsInput (altCell i) = false :=
  s.readsInput_elsewhere (BitVec.toNat_ne.2 (by rw [altCell_toNat hi]; show 0xE0 + i ≠ 0x0B; omega))
    (BitVec.toNat_ne.2 (by rw [altCell_toNat hi]; show 0xE0 + i ≠ 0xFB; omega))

theorem State.writeCell_altCell (s : State) {i : Nat} (hi : i < 16) (v : Nibble) :
    s.writeCell (altCell i) v = s.setCell (altCell i) v :=
  s.writeCell_elsewhere v (BitVec.toNat_ne.2 (by rw [altCell_toNat hi]; show 0xE0 + i ≠ 0x0A; omega))
    (BitVec.toNat_ne.2 (by rw [altCell_toNat hi]; show 0xE0 + i ≠ 0xFA; omega))

/-- One exchange reads the register's cell as the environment may supply it, and the alternate cell raw (R181). -/
theorem State.exchange_eq (s : State) {i : Nat} (hi : i < 16) :
    s.exchange i = ((s.afterReads [BitVec.ofNat 8 i]).writeCell (BitVec.ofNat 8 i) (s.cell (altCell i))).setCell (altCell i)
      (s.readCell (BitVec.ofNat 8 i)) := by
  have hreads (t : State) : t.readsInput (altCell i) = false := t.readsInput_altCell hi
  simp [State.exchange, State.readCell_plain (hreads _), State.afterReads_singleton _ (hreads _),
    State.writeCell_altCell _ hi]

theorem State.exchange_cell (s : State) {i : Nat} (hi : i < 16) (d : DataAddr) :
    (s.exchange i).cell d = if d = altCell i then s.readCell (BitVec.ofNat 8 i)
      else if d = BitVec.ofNat 8 i then s.cell (altCell i) else s.cell d := by
  rw [s.exchange_eq hi, State.setCell_cell, State.writeCell_cell, State.afterReads_cell]

/-! What the locations of IN and OUT depend on. -/

theorem State.inAddr_congr {s t : State} (h : t.cell 0xF3 = s.cell 0xF3) : t.inAddr = s.inAddr := by
  have hiopos : t.iopos = s.iopos := congrArg (·.getLsbD 1) h
  rw [State.inAddr, State.inAddr, hiopos]

theorem State.outAddr_congr {s t : State} (h : t.cell 0xF3 = s.cell 0xF3) : t.outAddr = s.outAddr := by
  have hiopos : t.iopos = s.iopos := congrArg (·.getLsbD 1) h
  rw [State.outAddr, State.outAddr, hiopos]

theorem State.readsInput_congr {s t : State} (h : t.cell 0xF3 = s.cell 0xF3) (hp : t.params = s.params) (a : DataAddr) :
    t.readsInput a = s.readsInput a := by
  rw [State.readsInput, State.readsInput, State.inAddr_congr h, hp]

/-- Of the first sixteen cells only 0x0B can be the active IN location (R24). -/
theorem State.readsInput_low (s : State) {i : Nat} (hi : i < 16) :
    s.readsInput (BitVec.ofNat 8 i) = true ↔ i = 11 ∧ s.readsInput 0x0B = true := by
  by_cases h : i = 11
  · subst h; simp
  · have hne : s.readsInput (BitVec.ofNat 8 i) = false :=
      s.readsInput_elsewhere (BitVec.toNat_ne.2 (by rw [toNat_ofNat_lt_16 hi]; exact h))
        (BitVec.toNat_ne.2 (by rw [toNat_ofNat_lt_16 hi]; show i ≠ 0xFB; omega))
    simp [hne, h]

/-- Of the first sixteen cells only 0x0A can be the active OUT location (R24). -/
theorem State.eq_outAddr_low (s : State) {i : Nat} (hi : i < 16) :
    BitVec.ofNat 8 i = s.outAddr ↔ i = 10 ∧ s.iopos = false := by
  rw [← BitVec.toNat_inj, toNat_ofNat_lt_16 hi, State.outAddr]
  cases s.iopos
  · simp
  · simp; omega

/-- An exchange makes one event where it writes the active OUT location (R45). -/
theorem State.exchange_outputs (s : State) {i : Nat} (hi : i < 16) :
    (s.exchange i).outputs =
      if i = 10 ∧ s.iopos = false ∧ s.params.ioModel = .external then s.outputs ++ [s.cell (altCell i)] else s.outputs := by
  have hout : (s.afterReads [BitVec.ofNat 8 i]).outAddr = s.outAddr := State.outAddr_congr (s.afterReads_cell _ _)
  rw [s.exchange_eq hi, State.setCell_outputs, State.writeCell_outputs, hout]
  simp only [s.eq_outAddr_low hi, State.afterReads_params, State.afterReads_outputs, and_assoc]

/-- An exchange makes one Input() where it reads the active IN location (R44). -/
theorem State.exchange_supply (s : State) {i : Nat} (hi : i < 16) :
    ((s.exchange i).inputs, (s.exchange i).inputsRead) =
      if i = 11 ∧ s.readsInput 0x0B = true then (s.inputs.tail, s.inputsRead + 1) else (s.inputs, s.inputsRead) := by
  rw [s.exchange_eq hi]
  simp only [State.setCell_inputs, State.setCell_inputsRead, State.writeCell_inputs, State.writeCell_inputsRead,
    State.afterReads, List.any_cons, List.any_nil, Bool.or_false, s.readsInput_low hi]
  split <;> rfl

/-- The cells of the first n exchanges (R181). -/
def isExchanged (n : Nat) (a : DataAddr) : Prop := ∃ k, k < n ∧ (a = BitVec.ofNat 8 k ∨ a = altCell k)

/-- Among the first 256 addresses the exchanged ones are 0 to n - 1 and 0xE0 to 0xE0 + n - 1. -/
theorem isExchanged_iff {n : Nat} (hn : n ≤ 16) (a : DataAddr) :
    isExchanged n a ↔ a.toNat < n ∨ 0xE0 ≤ a.toNat ∧ a.toNat < 0xE0 + n := by
  constructor
  · rintro ⟨k, hk, rfl | rfl⟩
    · rw [toNat_ofNat_lt_16 (by omega)]; omega
    · rw [altCell_toNat (by omega)]; omega
  · rintro (h | h)
    · exact ⟨a.toNat, h, .inl (BitVec.eq_of_toNat_eq (by rw [toNat_ofNat_lt_16 (by omega)]))⟩
    · exact ⟨a.toNat - 0xE0, by omega, .inr (BitVec.eq_of_toNat_eq (by rw [altCell_toNat (by omega)]; omega))⟩

/-- What the first n exchanges have done: the cells, at most one event and at most one Input() (R181). -/
structure Exchanged (n : Nat) (s t : State) : Prop where
  low : ∀ k, k < n → t.cell (BitVec.ofNat 8 k) = s.cell (altCell k)
  high : ∀ k, k < n → t.cell (altCell k) = s.readCell (BitVec.ofNat 8 k)
  rest : ∀ a, ¬ isExchanged n a → t.cell a = s.cell a
  outputs : t.outputs =
    if 11 ≤ n ∧ s.iopos = false ∧ s.params.ioModel = .external then s.outputs ++ [s.cell 0xEA] else s.outputs
  supply : (t.inputs, t.inputsRead) =
    if 12 ≤ n ∧ s.readsInput 0x0B = true then (s.inputs.tail, s.inputsRead + 1) else (s.inputs, s.inputsRead)
  params : t.params = s.params

namespace Exchanged

variable {n : Nat} {s t : State}

/-- WRFLAGS is not exchanged, so IN and OUT stay where they are. -/
theorem wrflags (h : Exchanged n s t) (hn : n ≤ 16) : t.cell 0xF3 = s.cell 0xF3 :=
  h.rest _ (by rw [isExchanged_iff hn]; show ¬ (0xF3 < n ∨ 0xE0 ≤ 0xF3 ∧ 0xF3 < 0xE0 + n); omega)

/-- The next exchange still reads what the register's cell gave at first: no Input() was made before R11. -/
theorem readCell_next (h : Exchanged n s t) (hn : n < 16) : t.readCell (BitVec.ofNat 8 n) = s.readCell (BitVec.ofNat 8 n) := by
  have hcell : t.cell (BitVec.ofNat 8 n) = s.cell (BitVec.ofNat 8 n) :=
    h.rest _ (by rw [isExchanged_iff (by omega), toNat_ofNat_lt_16 hn]; omega)
  have hreads : t.readsInput (BitVec.ofNat 8 n) = s.readsInput (BitVec.ofNat 8 n) :=
    State.readsInput_congr (h.wrflags (by omega)) h.params _
  rw [State.readCell, State.readCell, hreads, hcell]
  split
  case isFalse => rfl
  case isTrue hin =>
    have hn11 : n = 11 := ((s.readsInput_low hn).1 hin).1
    have hsupply := h.supply
    rw [if_neg (by omega)] at hsupply
    obtain ⟨hinputs, hcount⟩ := Prod.mk.inj hsupply
    rw [State.input, State.input, hinputs, hcount]

/-- The next exchange adds its pair. -/
theorem succ (h : Exchanged n s t) (hn : n < 16) : Exchanged (n + 1) s (t.exchange n) where
  low k hk := by
    have hne : BitVec.ofNat 8 k ≠ altCell n :=
      BitVec.toNat_ne.2 (by rw [toNat_ofNat_lt_16 (by omega), altCell_toNat hn]; omega)
    rw [t.exchange_cell hn, if_neg hne]
    by_cases hkn : k = n
    · subst hkn
      rw [if_pos rfl]
      exact h.rest _ (by rw [isExchanged_iff (by omega), altCell_toNat hn]; omega)
    · rw [if_neg (BitVec.toNat_ne.2 (by rw [toNat_ofNat_lt_16 (by omega), toNat_ofNat_lt_16 hn]; exact hkn))]
      exact h.low k (by omega)
  high k hk := by
    rw [t.exchange_cell hn]
    by_cases hkn : k = n
    · subst hkn
      rw [if_pos rfl, h.readCell_next hn]
    · rw [if_neg (BitVec.toNat_ne.2 (by rw [altCell_toNat (by omega), altCell_toNat hn]; omega)),
        if_neg (BitVec.toNat_ne.2 (by rw [altCell_toNat (by omega), toNat_ofNat_lt_16 hn]; omega))]
      exact h.high k (by omega)
  rest a ha := by
    have halt : a ≠ altCell n := fun e => ha ⟨n, by omega, .inr e⟩
    have hreg : a ≠ BitVec.ofNat 8 n := fun e => ha ⟨n, by omega, .inl e⟩
    rw [t.exchange_cell hn, if_neg halt, if_neg hreg]
    exact h.rest a fun ⟨k, hk, e⟩ => ha ⟨k, by omega, e⟩
  outputs := by
    have hiopos : t.iopos = s.iopos := congrArg (·.getLsbD 1) (h.wrflags (by omega))
    rw [t.exchange_outputs hn, h.outputs, h.params, hiopos]
    by_cases hn10 : n = 10
    · subst hn10
      have hcell : t.cell (altCell 10) = s.cell 0xEA := h.rest _ (by rw [isExchanged_iff (by omega)]; decide)
      simp [hcell]
    · have hle : 11 ≤ n + 1 ↔ 11 ≤ n := by omega
      simp [hn10, hle]
  supply := by
    have hreads : t.readsInput 0x0B = s.readsInput 0x0B := State.readsInput_congr (h.wrflags (by omega)) h.params _
    rw [t.exchange_supply hn, hreads]
    by_cases hn11 : n = 11
    · subst hn11
      obtain ⟨hinputs, hcount⟩ := Prod.mk.inj h.supply
      simp [hinputs, hcount]
    · have hle : 12 ≤ n + 1 ↔ 12 ≤ n := by omega
      simp only [hn11, hle, false_and, if_false, h.supply]
  params := by rw [t.exchange_eq hn]; simp [h.params]

end Exchanged

/-- The first n exchanges, from any state. -/
theorem State.exchangeFirst_exchanged (s : State) : ∀ {n}, n ≤ 16 → Exchanged n s (s.exchangeFirst n)
  | 0, _ => by
    refine ⟨?_, ?_, fun _ _ => rfl, ?_, ?_, rfl⟩ <;> simp [State.exchangeFirst]
  | _ + 1, hn => (s.exchangeFirst_exchanged (Nat.le_of_succ_le hn)).succ hn

/-- EXR's count is 1 to 16 (R63, R181). -/
theorem exrCount_eq (n : Nibble) : exrCount n = if n = 0 then 16 else n.toNat := rfl

theorem exrCount_le (n : Nibble) : exrCount n ≤ 16 := by
  have := n.isLt
  rw [exrCount_eq]
  split <;> omega

/-- EXR completes where its check does not stop it (R181). -/
theorem exec_exrN {s : State} {n : Nibble} (h : s.exrFault (exrCount n) = none) :
    exec (.exrN n) s = .next (s.exchangeFirst (exrCount n)) := by
  simp [exec, execExrN, h]

/-- Settles O22: the sixteen exchanges or fewer, and what exchanges leave alone. -/
theorem exchangeRegisters : Obligations.ExchangeRegisters := by
  intro s n count hcount hallowed
  obtain rfl : count = exrCount n := hcount
  have hfault : s.exrFault (exrCount n) = none := by
    refine if_neg fun h => ?_
    rcases hallowed with hlt | hplain
    · omega
    · exact h.2 hplain
  have hex := s.exchangeFirst_exchanged (exrCount_le n)
  obtain ⟨hpc, hsp, hc, hz, hv, hpm, hparams, -⟩ := s.exchangeFirst_frame (exrCount n)
  refine ⟨rfl, _, exec_exrN hfault, fun k hk => ⟨hex.low k hk, hex.high k hk⟩, fun a ha => hex.rest a ?_,
    hpc, hsp, hc, hz, hv, hpm, hparams, hex.outputs, hex.supply⟩
  rintro ⟨k, hk, h | h⟩
  · exact (ha k hk).1 h
  · exact (ha k hk).2 h

/-- Settles O49: each exchange of the second EXR undoes one of the first, as no cell is read from the environment. -/
theorem exchangeTwiceRestores : Obligations.ExchangeTwiceRestores := by
  intro s n hfault hplain
  have hle := exrCount_le n
  obtain ⟨hpc, -, -, -, -, -, hparams, -⟩ := s.exchangeFirst_frame (exrCount n)
  have hfirst := s.exchangeFirst_exchanged hle
  have hsecond := (s.exchangeFirst (exrCount n)).exchangeFirst_exchanged hle
  have hfault' : (s.exchangeFirst (exrCount n)).exrFault (exrCount n) = none := by
    rw [← hfault, State.exrFault, State.exrFault, State.instrAddr, State.instrAddr, hpc, hparams]
  refine ⟨_, _, exec_exrN hfault, exec_exrN hfault', fun a => ?_⟩
  by_cases ha : isExchanged (exrCount n) a
  · obtain ⟨k, hk, rfl | rfl⟩ := ha
    · rw [hsecond.low k hk, hfirst.high k hk, State.readCell_plain (hplain k hk)]
    · have hplain' := (State.readsInput_congr (hfirst.wrflags hle) hparams _).trans (hplain k hk)
      rw [hsecond.high k hk, State.readCell_plain hplain', hfirst.low k hk]
  · rw [hsecond.rest a ha, hfirst.rest a ha]

end Sys2Proof.Machine
end

section
/-!
What an instruction can do, said once for all 31: the faults it can raise, and the shapes of the states it can answer.
-/
namespace Sys2Proof.Machine

/-! Before the last write. -/

/-- `s'` is `s` after reads and settings of flags that instruction `i` makes, and nothing else (R120, R18). -/
structure Prepared (i : Instr) (s s' : State) : Prop where
  pc : s'.pc = s.pc
  sp : s'.sp = s.sp
  dm : s'.dm = s.dm
  pm : s'.pm = s.pm
  params : s'.params = s.params
  outputs : s'.outputs = s.outputs
  supply : s'.inputs = s.inputs ∧ s'.inputsRead = s.inputsRead
    ∨ s'.inputs = s.inputs.tail ∧ s'.inputsRead = s.inputsRead + 1
  c : (flagsWritten i).1 = false → s'.c = s.c
  z : (flagsWritten i).2.1 = false → s'.z = s.z
  v : (flagsWritten i).2.2 = false → s'.v = s.v

namespace Prepared

variable {i : Instr} {s s' : State}

theorem refl (i : Instr) (s : State) : Prepared i s s :=
  ⟨rfl, rfl, rfl, rfl, rfl, rfl, .inl ⟨rfl, rfl⟩, fun _ => rfl, fun _ => rfl, fun _ => rfl⟩

theorem afterReads (i : Instr) (s : State) (as : List DataAddr) : Prepared i s (s.afterReads as) := by
  rcases s.afterReads_eq as with h | h
  · rw [h]; exact refl i s
  · rw [h]
    exact ⟨rfl, rfl, rfl, rfl, rfl, rfl, .inr ⟨rfl, rfl⟩, fun _ => rfl, fun _ => rfl, fun _ => rfl⟩

theorem setC (h : Prepared i s s') (hw : (flagsWritten i).1 = true) (b : Bool) : Prepared i s (s'.setC b) :=
  { h with c := fun hn => absurd hw (by simp [hn]) }

theorem setZ (h : Prepared i s s') (hw : (flagsWritten i).2.1 = true) (b : Bool) : Prepared i s (s'.setZ b) :=
  { h with z := fun hn => absurd hw (by simp [hn]) }

theorem setV (h : Prepared i s s') (hw : (flagsWritten i).2.2 = true) (b : Bool) : Prepared i s (s'.setV b) :=
  { h with v := fun hn => absurd hw (by simp [hn]) }

theorem setCZ (hc : (flagsWritten i).1 = true) (hz : (flagsWritten i).2.1 = true) (c z : Bool) :
    Prepared i s { s with c := c, z := z } := ((refl i s).setC hc c).setZ hz z

theorem cell (h : Prepared i s s') (a : DataAddr) : s'.cell a = s.cell a := by
  rw [State.cell, State.cell, h.dm]

theorem outAddr (h : Prepared i s s') : s'.outAddr = s.outAddr := State.outAddr_congr (h.cell _)

/-- The end with a register's write, its check made on the state before the instruction (R224). -/
theorem endWithReg (h : Prepared i s s') (x : Reg) (v : Nibble) (k : PcClass) :
    endWithReg s' x v k = finish (s.pcWriteFault (regCell x) k) (s'.putCell (regCell x) v k) := by
  rw [Machine.endWithReg, State.pcWriteFault_congr _ _ h.pc h.sp h.params]

/-- The end with a store, its checks made on the state before the instruction (R224). -/
theorem endWithStore (h : Prepared i s s') (a : DataAddr) (v : Nibble) :
    endWithStore s' a v =
      finish ((s.sfrFault a .write).or (s.pcWriteFault a .other)) (s'.putCell a v .other) := by
  rw [Machine.endWithStore, State.sfrFault_congr _ _ h.pc h.params, State.pcWriteFault_congr _ _ h.pc h.sp h.params]

end Prepared

/-! The fault of an instruction, by the check that raises it. -/

/-- The check of page 15 on the address of a memory MOV (R44, R45). -/
def State.accessFault (s : State) (i : Instr) : Option Fault :=
  (s.memoryAccess i).bind fun p => s.sfrFault p.1 p.2

/-- The check of the write that `PcWriteEffect` follows (R143). -/
def State.writeFault (s : State) (i : Instr) : Option Fault :=
  (s.finalWrite i).bind fun p => s.pcWriteFault p.1 p.2

/-- The checks of RET (R202) and of EXR (R181). -/
def State.ownFault (s : State) : Instr → Option Fault
  | .retR0N _ => if s.sp = 0 then some (.stackUnderflow (s.pc - 1)) else none
  | .exrN n => s.exrFault (exrCount n)
  | _ => none

/-- The fault an instruction stops with, if it does. -/
def State.faultOf (s : State) (i : Instr) : Option Fault :=
  (s.accessFault i).or ((s.writeFault i).or (s.ownFault i))

/-- DSZ skips: its result is 0 and its write starts no transfer (R145, R165). -/
def State.skipsNext (s : State) : Instr → Prop
  | .dszRy y => s.reg y = 1 ∧ s.triggers (regCell y) .other = false
  | _ => False

/-- The shapes of the states an instruction can answer where it raises no fault. -/
inductive Change (i : Instr) (s : State) : State → Prop
  /-- the final write, with its jump or call (R143) -/
  | put {s' : State} {a : DataAddr} {k : PcClass} (v : Nibble) :
    s.finalWrite i = some (a, k) → ¬ s.skipsNext i → Prepared i s s' → Change i s (s'.putCell a v k)
  /-- DSZ's write and its skip (R165) -/
  | putAndSkip {s' : State} {a : DataAddr} {k : PcClass} (v : Nibble) :
    s.finalWrite i = some (a, k) → s.skipsNext i → Prepared i s s' → Change i s ((s'.putCell a v k).skip 1)
  /-- a load, or a result with a literal, in R0 (R124, R126, R162, R166 to R168) -/
  | setR0 {s' : State} (v : Nibble) : s.finalWrite i = none → Prepared i s s' → Change i s (s'.setCell 0x00 v)
  /-- MOV PC,NN (R127) -/
  | setPcmPch (lo hi : Nibble) : s.finalWrite i = none → Change i s ((s.setCell 0x0E lo).setCell 0x0F hi)
  /-- BSET, BCLR, BTG (R184 to R186) -/
  | modify (a : DataAddr) (v : Nibble) : s.finalWrite i = none → Change i s (s.writeCell a v)
  /-- EXR (R181) -/
  | exchange {n : Nat} : s.finalWrite i = none → n ≤ 16 → Change i s (s.exchangeFirst n)
  /-- CP, BIT, and a SKIP whose condition fails (R161, R183, R203) -/
  | goOn {s' : State} : s.finalWrite i = none → Prepared i s s' → Change i s s'
  /-- JR, and a SKIP whose condition holds (R140, R203) -/
  | goTo (p : ProgAddr) : s.finalWrite i = none → s.mayMovePc i → Change i s (s.setPc p)
  /-- RET (R202) -/
  | pop {n : Nibble} (p : ProgAddr) : i = .retR0N n → Change i s (((s.setCell 0x00 n).setSp (s.sp - 1)).setPc p)

/-- The outcome is the instruction's fault, or a state of one of the shapes. -/
def Answers (i : Instr) (s : State) (o : Host.Outcome State Fault Refusal) : Prop :=
  ∃ t, o = finish (s.faultOf i) t ∧ Change i s t

theorem Answers.finish {i : Instr} {s t : State} {f : Option Fault} (hf : s.faultOf i = f) (ht : Change i s t) :
    Answers i s (finish f t) := ⟨t, by rw [hf], ht⟩

theorem Answers.of_eq_next {i : Instr} {s t : State} {o : Host.Outcome State Fault Refusal} (ho : o = .next t)
    (hf : s.faultOf i = none) (ht : Change i s t) : Answers i s o :=
  ho ▸ .finish hf ht

theorem Answers.endWithReg {i : Instr} {s s' : State} {x : Reg} {k : PcClass}
    (hf : s.faultOf i = (s.pcWriteFault (regCell x) k).or none) (hw : s.finalWrite i = some (regCell x, k))
    (hskip : ¬ s.skipsNext i) (hp : Prepared i s s') (v : Nibble) : Answers i s (endWithReg s' x v k) := by
  rw [hp.endWithReg]
  exact .finish (hf.trans Option.or_none) (.put v hw hskip hp)

theorem Answers.endWithStore {i : Instr} {s s' : State} {a : DataAddr}
    (hf : s.faultOf i = (s.sfrFault a .write).or ((s.pcWriteFault a .other).or none))
    (hw : s.finalWrite i = some (a, .other)) (hskip : ¬ s.skipsNext i) (hp : Prepared i s s') (v : Nibble) :
    Answers i s (endWithStore s' a v) := by
  rw [hp.endWithStore]
  exact .finish (by rw [hf, Option.or_none]) (.put v hw hskip hp)

/-- The instructions that store a value in R0 and do nothing else after their reads and flags (R124, R126, R162, R166 to R168). -/
def storesR0 : Instr → Bool
  | .movR0Xy _ _ | .movR0Nn _ | .addR0N _ | .orR0N _ | .andR0N _ | .xorR0N _ => true
  | _ => false

theorem exec_of_storesR0 (s : State) {i : Instr} (hi : storesR0 i = true) :
    ∃ s' v, Prepared i s s' ∧ exec i s = finish (s.faultOf i) (s'.setCell 0x00 v) := by
  cases i
  case movR0Xy x y =>
    exact ⟨_, _, .afterReads _ s _, (exec_movR0Xy s x y).trans (congrArg (finish · _) Option.or_none.symm)⟩
  case movR0Nn nn =>
    exact ⟨_, _, .afterReads _ s _, (exec_movR0Nn s nn).trans (congrArg (finish · _) Option.or_none.symm)⟩
  case addR0N n => exact ⟨_, _, .setCZ rfl rfl _ _, exec_addR0N s n⟩
  case orR0N | andR0N | xorR0N => exact ⟨_, _, .setCZ rfl rfl _ _, endLiteralLogic_eq s _ _⟩
  all_goals cases hi

theorem Answers.of_storesR0 {s : State} {i : Instr} (hi : storesR0 i = true) (hw : s.finalWrite i = none) :
    Answers i s (exec i s) := by
  obtain ⟨s', v, hp, h⟩ := exec_of_storesR0 s hi
  exact ⟨_, h, .setR0 v hw hp⟩

/-- Every instruction stops with its fault or answers one of the shapes. -/
theorem exec_answers (s : State) (i : Instr) : Answers i s (exec i s) := by
  cases i
  -- ADD, ADC, SUB, SBB
  case addRxRy | adcRxRy | subRxRy | sbbRxRy =>
    exact .endWithReg rfl rfl id ((((Prepared.afterReads _ s _).setC rfl _).setZ rfl _).setV rfl _) _
  -- OR, AND, XOR
  case orRxRy | andRxRy | xorRxRy => exact .endWithReg rfl rfl id ((Prepared.afterReads _ s _).setZ rfl _) _
  -- INC, DEC, RRC
  case incRy | decRy | rrcRy =>
    exact .endWithReg rfl rfl id (((Prepared.afterReads _ s _).setC rfl _).setZ rfl _) _
  -- the MOVs to a register
  case movRxRy => exact .endWithReg rfl rfl id (Prepared.afterReads _ s _) _
  case movRxN => exact .endWithReg rfl rfl id (Prepared.refl _ s) _
  -- the stores
  case movXyR0 | movNnR0 => exact .endWithStore rfl rfl id (Prepared.afterReads _ s _) _
  -- DSZ, with or without its skip
  case dszRy y =>
    rw [exec_dszRy]
    refine .finish Option.or_none ?_
    have hp := Prepared.afterReads (.dszRy y) s [regCell y]
    dsimp only
    split
    case isTrue h => exact .putAndSkip _ rfl h hp
    case isFalse h => exact .put _ rfl h hp
  -- the stores in R0
  case movR0Xy | movR0Nn | addR0N | orR0N | andR0N | xorR0N =>
    exact .of_storesR0 rfl rfl
  -- CP and MOV PC,NN
  case cpR0N => exact .of_eq_next rfl rfl (.goOn rfl (((Prepared.afterReads _ s _).setC rfl _).setZ rfl _))
  case movPcNn nn =>
    exact .of_eq_next (exec_movPcNn s nn) rfl (.setPcmPch _ _ rfl)
  -- EXR and the bit instructions
  case exrN n => exact .finish rfl (.exchange rfl (exrCount_le n))
  case bitRgM => exact .of_eq_next rfl rfl (.goOn rfl ((Prepared.afterReads _ s _).setZ rfl _))
  case bsetRgM g m => exact .of_eq_next (endModify_eq s g (setBit · m)) rfl (.modify _ _ rfl)
  case bclrRgM g m => exact .of_eq_next (endModify_eq s g (clearBit · m)) rfl (.modify _ _ rfl)
  case btgRgM g m => exact .of_eq_next (endModify_eq s g (toggleBit · m)) rfl (.modify _ _ rfl)
  -- JR, SKIP, RET
  case jrNn => exact .of_eq_next rfl rfl (.goTo _ rfl trivial)
  case skipFM f m =>
    refine .of_eq_next rfl rfl ?_
    split
    case isTrue h => exact .goTo _ rfl h
    case isFalse => exact .goOn rfl (Prepared.refl _ s)
  case retR0N n =>
    rw [exec_retR0N]
    exact .finish rfl (.pop _ rfl)

/-- An instruction answers a next state where it raises no fault. -/
theorem completes_of_faultOf {s : State} {i : Instr} (h : s.faultOf i = none) : completes i s := by
  obtain ⟨t, ht, -⟩ := exec_answers s i
  exact ⟨t, by rw [ht, h]; rfl⟩

/-- A next state comes with no fault and has one of the shapes. -/
theorem exec_eq_next {s t : State} {i : Instr} (h : exec i s = .next t) : s.faultOf i = none ∧ Change i s t := by
  obtain ⟨u, hu, hchange⟩ := exec_answers s i
  rw [hu, finish_eq_next] at h
  obtain ⟨hf, rfl⟩ := h
  exact ⟨hf, hchange⟩

/-- An instruction stops exactly with its fault. -/
theorem exec_eq_fault {s : State} {i : Instr} {f : Fault} : exec i s = .fault f ↔ s.faultOf i = some f := by
  obtain ⟨t, ht, -⟩ := exec_answers s i
  rw [ht, finish_eq_fault]

/-- What an instruction with a final write answers: that write, made in a prepared state, and DSZ's skip where it skips. -/
theorem exec_writer {s t : State} {i : Instr} {a : DataAddr} {k : PcClass} (hw : s.finalWrite i = some (a, k))
    (h : exec i s = .next t) :
    ∃ s' v, Prepared i s s' ∧
      (¬ s.skipsNext i ∧ t = s'.putCell a v k ∨ s.skipsNext i ∧ t = (s'.putCell a v k).skip 1) := by
  obtain ⟨-, hchange⟩ := exec_eq_next h
  cases hchange
  case put s' _ _ v hw' hskip hp =>
    obtain ⟨rfl, rfl⟩ := Prod.mk.inj (Option.some.inj (hw.symm.trans hw'))
    exact ⟨s', v, hp, .inl ⟨hskip, rfl⟩⟩
  case putAndSkip s' _ _ v hw' hskip hp =>
    obtain ⟨rfl, rfl⟩ := Prod.mk.inj (Option.some.inj (hw.symm.trans hw'))
    exact ⟨s', v, hp, .inr ⟨hskip, rfl⟩⟩
  case pop hi => subst hi; cases hw
  all_goals cases hw.symm.trans (by assumption : s.finalWrite i = none)

/-- Settles O31: the end of an instruction is its fault or a next state. -/
theorem noStepRefuses : Obligations.NoStepRefuses := by
  intro s r h
  obtain ⟨t, ht, -⟩ := exec_answers s.afterFetch s.fetched
  rw [step, ht] at h
  exact finish_ne_refused _ _ _ h

end Sys2Proof.Machine
end

section
/-!
Where each model fault is raised (R222): the checks one by one, that at most one of them can stop an instruction (R223), and
the table.
-/
namespace Sys2Proof.Machine

/-! Each check. -/

theorem State.sfrFault_eq_some {s : State} {a : DataAddr} {k : Access} {f : Fault} :
    s.sfrFault a k = some f ↔
      f = .unmodelledSFR (s.pc - 1) a k ∧ isUndescribedSfr a ∧ s.params.sfrModel = .refuse := by
  simp only [State.sfrFault, State.instrAddr, isUndescribedSfr, and_assoc]
  split
  case isTrue h => rw [Option.some_inj, eq_comm, and_iff_left h]
  case isFalse h => exact ⟨nofun, fun hf => absurd hf.2 h⟩

theorem State.callFault_eq_some {s : State} {f : Fault} :
    s.callFault = some f ↔ f = .stackOverflow (s.pc - 1) ∧ s.params.stackDepth ≤ s.sp := by
  simp only [State.callFault, State.instrAddr]
  split
  case isTrue h => rw [Option.some_inj, eq_comm, and_iff_left h]
  case isFalse h => exact ⟨nofun, fun hf => absurd hf.2 h⟩

theorem State.triggers_iff {s : State} {a : DataAddr} {k : PcClass} :
    s.triggers a k = true ↔ (a = jsrCell ∨ a = pclCell) ∧ (k = .named ∨ s.params.otherPcWrites = .trigger) :=
  decide_eq_true_iff

/-- A write of JSR or PCL stops for a full stack or for its class, and no other write stops (R143). -/
theorem State.pcWriteFault_eq_some {s : State} {a : DataAddr} {k : PcClass} {f : Fault} :
    s.pcWriteFault a k = some f ↔
      (a = jsrCell ∧ s.triggers a k = true) ∧ f = .stackOverflow (s.pc - 1) ∧ s.params.stackDepth ≤ s.sp
        ∨ f = .unspecifiedPcWrite (s.pc - 1) a ∧ (a = jsrCell ∨ a = pclCell)
          ∧ s.params.otherPcWrites = .refuse ∧ k = .other := by
  unfold State.pcWriteFault
  split
  case isTrue ht =>
    have hclass : ¬ (s.params.otherPcWrites = .refuse ∧ k = .other) := by
      rintro ⟨hrefuse, rfl⟩
      rw [State.triggers_iff, hrefuse] at ht
      simp at ht
    simp only [ht, hclass, and_true, and_false, or_false]
    split
    case isTrue ha => simp only [ha, true_and, State.callFault_eq_some]
    case isFalse ha => simp [ha]
  case isFalse ht =>
    simp only [ht, Bool.false_eq_true, and_false, false_and, false_or, State.instrAddr]
    split
    case isTrue h =>
      have hother : k = .other := by
        cases k
        · exact absurd (State.triggers_iff.2 ⟨h.1, .inl rfl⟩) ht
        · rfl
      rw [Option.some_inj, eq_comm, and_iff_left ⟨h.1, h.2, hother⟩]
    case isFalse h => exact ⟨nofun, fun hf => absurd ⟨hf.2.1, hf.2.2.1⟩ h⟩

/-- EXR's check counts the registers as the literal stands for them (R63, R181). -/
theorem State.exrFault_eq_some {s : State} {n : Nibble} {f : Fault} :
    s.exrFault (exrCount n) = some f ↔
      f = .unspecifiedPcWrite (s.pc - 1) 0x0C ∧ (n = 0 ∨ 13 ≤ n.toNat) ∧ s.params.otherPcWrites ≠ .plain := by
  have hcount : 13 ≤ exrCount n ↔ n = 0 ∨ 13 ≤ n.toNat := by
    by_cases h0 : n = 0
    · simp [exrCount_eq, h0]
    · rw [exrCount_eq, if_neg h0, or_iff_right h0]
  simp only [State.exrFault, State.instrAddr, hcount]
  split
  case isTrue h => rw [Option.some_inj, eq_comm, and_iff_left h]; rfl
  case isFalse h => exact ⟨nofun, fun hf => absurd hf.2 h⟩

/-- RET and EXR alone have a check of their own. -/
theorem State.ownFault_eq_some {s : State} {i : Instr} {f : Fault} :
    s.ownFault i = some f ↔
      (f = .stackUnderflow (s.pc - 1) ∧ s.sp = 0 ∧ ∃ n, i = .retR0N n)
        ∨ f = .unspecifiedPcWrite (s.pc - 1) 0x0C ∧ s.params.otherPcWrites ≠ .plain
          ∧ ∃ n, i = .exrN n ∧ (n = 0 ∨ 13 ≤ n.toNat) := by
  cases i
  case retR0N n =>
    simp only [State.ownFault]
    split
    case isTrue h =>
      rw [Option.some_inj]
      refine ⟨fun hf => .inl ⟨hf.symm, h, n, rfl⟩, ?_⟩
      rintro (⟨hf, -⟩ | ⟨-, -, m, hm, -⟩)
      · exact hf.symm
      · cases hm
    case isFalse h => simp [h]
  case exrN n =>
    refine State.exrFault_eq_some.trans ⟨fun ⟨hf, hn, hp⟩ => .inr ⟨hf, hp, n, rfl, hn⟩, ?_⟩
    rintro (⟨-, -, m, hm⟩ | ⟨hf, hp, m, hm, hn⟩)
    · cases hm
    · cases hm
      exact ⟨hf, hn, hp⟩
  all_goals simp [State.ownFault]

/-! At most one check stops an instruction (R223). -/

/-- A memory MOV that stores writes the cell whose address it checks. -/
theorem finalWrite_of_memoryAccess {s : State} {i : Instr} {a b : DataAddr} {acc : Access} {k : PcClass}
    (hm : s.memoryAccess i = some (a, acc)) (hw : s.finalWrite i = some (b, k)) : b = a := by
  cases i
  case movXyR0 | movNnR0 =>
    cases hm
    cases hw
    rfl
  case movR0Xy | movR0Nn => cases hw
  all_goals cases hm

/-- RET and EXR have no final write and form no address. -/
theorem no_ownFault {s : State} {i : Instr} (h : s.finalWrite i ≠ none ∨ s.memoryAccess i ≠ none) :
    s.ownFault i = none := by
  cases i
  case retR0N | exrN => rcases h with h | h <;> exact absurd rfl h
  all_goals rfl

/-- A cell of page 15 is neither JSR nor PCL, so a store that its check stops has no other fault. -/
theorem writeFault_of_accessFault {s : State} {i : Instr} {f : Fault} (h : s.accessFault i = some f) :
    s.writeFault i = none := by
  obtain ⟨⟨a, acc⟩, hm, hf⟩ := Option.bind_eq_some_iff.1 h
  obtain ⟨-, ⟨hpage, -⟩, -⟩ := State.sfrFault_eq_some.1 hf
  rcases hw : s.finalWrite i with - | ⟨b, k⟩
  · rw [State.writeFault, hw]; rfl
  · obtain rfl := finalWrite_of_memoryAccess hm hw
    replace hpage : 0xF0 ≤ b.toNat := hpage
    have hne {c : DataAddr} (hc : c.toNat < 0xF0) : b ≠ c := fun e => by rw [e] at hpage; omega
    rw [State.writeFault, hw]
    exact (s.pcWrite_elsewhere k (hne (by decide)) (hne (by decide))).2.1

/-- The fault is the one of whichever check fails. -/
theorem State.faultOf_eq_some {s : State} {i : Instr} {f : Fault} :
    s.faultOf i = some f ↔ s.accessFault i = some f ∨ s.writeFault i = some f ∨ s.ownFault i = some f := by
  rw [State.faultOf]
  rcases ha : s.accessFault i with - | e
  · rcases hw : s.writeFault i with - | e
    · simp
    · have ho : s.ownFault i = none :=
        no_ownFault (.inl fun h => by rw [State.writeFault, h] at hw; cases hw)
      simp [ho]
  · have hw : s.writeFault i = none := writeFault_of_accessFault ha
    have ho : s.ownFault i = none :=
      no_ownFault (.inr fun h => by rw [State.accessFault, h] at ha; cases ha)
    simp [hw, ho]

/-! The table. -/

theorem State.accessFault_eq_some {s : State} {i : Instr} {f : Fault} :
    s.accessFault i = some f ↔ ∃ a k, s.memoryAccess i = some (a, k) ∧
      f = .unmodelledSFR (s.pc - 1) a k ∧ isUndescribedSfr a ∧ s.params.sfrModel = .refuse := by
  simp only [State.accessFault, Option.bind_eq_some_iff, Prod.exists, State.sfrFault_eq_some]

theorem State.writeFault_eq_some {s : State} {i : Instr} {f : Fault} :
    s.writeFault i = some f ↔ ∃ a k, s.finalWrite i = some (a, k) ∧
      ((a = jsrCell ∧ s.triggers a k = true) ∧ f = .stackOverflow (s.pc - 1) ∧ s.params.stackDepth ≤ s.sp
        ∨ f = .unspecifiedPcWrite (s.pc - 1) a ∧ (a = jsrCell ∨ a = pclCell)
          ∧ s.params.otherPcWrites = .refuse ∧ k = .other) := by
  simp only [State.writeFault, Option.bind_eq_some_iff, Prod.exists, State.pcWriteFault_eq_some]

/-- Settles O32: each row of the table names the check that raises its fault. -/
theorem faultsExactlyWhereTabulated : Obligations.FaultsExactlyWhereTabulated := by
  intro s i f
  rw [exec_eq_fault, State.faultOf_eq_some, State.accessFault_eq_some, State.writeFault_eq_some, State.ownFault_eq_some]
  cases f
  case stackOverflow p =>
    simp only [State.faultCondition, Fault.stackOverflow.injEq, reduceCtorEq, false_and, and_false, exists_false, false_or,
      or_false]
    constructor
    · rintro ⟨_, k, hw, ⟨rfl, ht⟩, hp, hfull⟩
      refine ⟨hp, hfull, ?_⟩
      cases k
      · exact .inl hw
      · exact .inr ⟨hw, (State.triggers_iff.1 ht).2.resolve_left nofun⟩
    · rintro ⟨hp, hfull, hw | ⟨hw, htrigger⟩⟩
      · exact ⟨_, _, hw, ⟨rfl, State.triggers_iff.2 ⟨.inl rfl, .inl rfl⟩⟩, hp, hfull⟩
      · exact ⟨_, _, hw, ⟨rfl, State.triggers_iff.2 ⟨.inl rfl, .inr htrigger⟩⟩, hp, hfull⟩
  case stackUnderflow p => simp [State.faultCondition]
  case unmodelledSFR p a k =>
    simp only [State.faultCondition, Fault.unmodelledSFR.injEq, reduceCtorEq, false_and, and_false, exists_false, or_false]
    constructor
    · rintro ⟨_, _, hm, ⟨hp, rfl, rfl⟩, hpage, hrefuse⟩
      exact ⟨hp, hpage, hrefuse, hm⟩
    · rintro ⟨hp, hpage, hrefuse, hm⟩
      exact ⟨a, k, hm, ⟨hp, rfl, rfl⟩, hpage, hrefuse⟩
  case unspecifiedPcWrite p a =>
    simp only [State.faultCondition, Fault.unspecifiedPcWrite.injEq, reduceCtorEq, false_and, and_false, exists_false,
      false_or]
    constructor
    · rintro (⟨_, k, hw, ⟨hp, rfl⟩, ha, hrefuse, rfl⟩ | ⟨⟨hp, ha⟩, hplain, hexr⟩)
      · exact ⟨hp, .inl ⟨hrefuse, ha, hw⟩⟩
      · exact ⟨hp, .inr ⟨hplain, ha, hexr⟩⟩
    · rintro ⟨hp, ⟨hrefuse, ha, hw⟩ | ⟨hplain, ha, hexr⟩⟩
      · exact .inl ⟨a, _, hw, ⟨hp, rfl⟩, ha, hrefuse, rfl⟩
      · exact .inr ⟨⟨hp, ha⟩, hplain, hexr⟩

end Sys2Proof.Machine
end

section
/-!
What every step keeps, each by the shapes of the answered states: the program, the flags, SP, `pc`, the events and the invariant;
and the states a run starts and ends in.
-/
namespace Sys2Proof.Machine

variable {s t : State} {i : Instr}

/-- No shape touches program memory or the parameters. -/
theorem Change.pm_params (h : Change i s t) : t.pm = s.pm ∧ t.params = s.params := by
  cases h
  case put _ a k v _ _ hp | putAndSkip _ a k v _ _ hp =>
    obtain ⟨⟨-, -, -, hpm, hparams, -⟩, -⟩ := State.putCell_frame _ a v k
    exact ⟨hpm.trans hp.pm, hparams.trans hp.params⟩
  case setR0 hp | goOn hp => exact ⟨hp.pm, hp.params⟩
  case modify => simp
  case exchange n _ _ =>
    obtain ⟨-, -, -, -, -, hpm, hparams, -⟩ := s.exchangeFirst_frame n
    exact ⟨hpm, hparams⟩
  case setPcmPch | goTo | pop => exact ⟨rfl, rfl⟩

/-- Settles O33: the fetch changes `pc` alone, and no shape touches the two. -/
theorem programIsNeverWritten : Obligations.ProgramIsNeverWritten :=
  fun _ _ h => (exec_eq_next h).2.pm_params

/-- Settles O34: flags are set before the last write alone, and no shape changes them after. -/
theorem flagsChangeOnlyByTable : Obligations.FlagsChangeOnlyByTable := by
  intro s t i h
  obtain ⟨-, hchange⟩ := exec_eq_next h
  cases hchange
  case put s' a k v _ _ hp | putAndSkip s' a k v _ _ hp =>
    obtain ⟨⟨hc, hz, hv, -⟩, -⟩ := s'.putCell_frame a v k
    exact ⟨fun hn => hc.trans (hp.c hn), fun hn => hz.trans (hp.z hn), fun hn => hv.trans (hp.v hn)⟩
  case setR0 hp | goOn hp => exact ⟨hp.c, hp.z, hp.v⟩
  case modify => simp
  case exchange n _ _ =>
    obtain ⟨-, -, hc, hz, hv, -⟩ := s.exchangeFirst_frame n
    exact ⟨fun _ => hc, fun _ => hz, fun _ => hv⟩
  case setPcmPch | goTo | pop => exact ⟨fun _ => rfl, fun _ => rfl, fun _ => rfl⟩

/-- A write in a prepared state leaves SP, or calls and adds 1 to it. -/
theorem Prepared.putCell_sp {s' : State} (hp : Prepared i s s') (a : DataAddr) (v : Nibble) (k : PcClass) :
    (s'.putCell a v k).sp = s.sp ∨ (s'.putCell a v k).sp = s.sp + 1 ∧ a = jsrCell ∧ s.triggers a k = true := by
  obtain ⟨-, hsp, -⟩ := s'.putCell_frame a v k
  rwa [hp.sp, State.triggers_congr a k hp.params] at hsp

/-- RET that completes found a level to pop. -/
theorem sp_ne_zero_of_ret {n : Nibble} (h : s.faultOf (.retR0N n) = none) : s.sp ≠ 0 := by
  intro hsp
  have hfault : s.faultOf (.retR0N n) = some (.stackUnderflow (s.pc - 1)) := if_pos hsp
  rw [hfault] at h
  cases h

/-- Settles O35: of the shapes only the final write, where it calls, and RET's pop change SP. -/
theorem stackPointerChangesOnlyByCallAndRet : Obligations.StackPointerChangesOnlyByCallAndRet := by
  intro s t i h
  obtain ⟨hfault, hchange⟩ := exec_eq_next h
  cases hchange
  case put a k v hw _ hp | putAndSkip a k v hw _ hp =>
    rcases hp.putCell_sp a v k with hsp | ⟨hsp, rfl, ht⟩
    · exact .inl hsp
    · exact .inr (.inl ⟨hsp, k, hw, ht⟩)
  case setR0 hp | goOn hp => exact .inl hp.sp
  case modify => exact .inl (s.writeCell_sp _ _)
  case exchange n _ _ =>
    obtain ⟨-, hsp, -⟩ := s.exchangeFirst_frame n
    exact .inl hsp
  case setPcmPch | goTo => exact .inl rfl
  case pop n _ hi =>
    subst hi
    exact .inr (.inr ⟨Nat.sub_add_cancel (Nat.pos_of_ne_zero (sp_ne_zero_of_ret hfault)), n, rfl⟩)

/-- A write that starts a transfer may move `pc` (R17). -/
theorem mayMovePc_of_triggers {a : DataAddr} {k : PcClass} (hw : s.finalWrite i = some (a, k))
    (ht : s.triggers a k = true) : s.mayMovePc i := by
  cases i
  case jrNn | skipFM | retR0N => cases hw
  case dszRy => cases hw; exact .inr ht
  all_goals exact ⟨a, k, hw, ht⟩

/-- A DSZ that skips may move `pc` (R17). -/
theorem mayMovePc_of_skipsNext (h : s.skipsNext i) : s.mayMovePc i := by
  cases i
  case dszRy => exact .inl h.1
  all_goals cases h

/-- Settles O36: the shapes that leave `pc` elsewhere are the table's. -/
theorem pcMovesOnlyByTable : Obligations.PcMovesOnlyByTable := by
  intro s t i h hstay
  obtain ⟨-, hchange⟩ := exec_eq_next h
  cases hchange
  case put s' a k v hw _ hp =>
    have ht : s'.triggers a k = false := by
      rw [State.triggers_congr a k hp.params]
      exact Bool.eq_false_iff.2 fun ht => hstay (mayMovePc_of_triggers hw ht)
    obtain ⟨-, -, hpc, -⟩ := s'.putCell_frame a v k
    exact (hpc ht).trans hp.pc
  case putAndSkip hskip _ => exact absurd (mayMovePc_of_skipsNext hskip) hstay
  case setR0 hp | goOn hp => exact hp.pc
  case modify => exact s.writeCell_pc _ _
  case exchange n _ _ =>
    obtain ⟨hpc, -⟩ := s.exchangeFirst_frame n
    exact hpc
  case setPcmPch => rfl
  case goTo hmove => exact absurd hmove hstay
  case pop hi => subst hi; exact absurd trivial hstay

/-- A write makes at most one event (R45). -/
theorem State.writeCell_events (s : State) (a : DataAddr) (v : Nibble) :
    ∃ e : List Nibble, e.length ≤ 1 ∧ (s.writeCell a v).outputs = s.outputs ++ e := by
  rw [State.writeCell_outputs]
  split
  · exact ⟨[v], le_rfl, rfl⟩
  · exact ⟨[], Nat.zero_le _, by simp⟩

/-- The exchanges make at most one event. -/
theorem Exchanged.events {n : Nat} (h : Exchanged n s t) :
    ∃ e : List Nibble, e.length ≤ 1 ∧ t.outputs = s.outputs ++ e := by
  rw [h.outputs]
  split
  · exact ⟨_, le_rfl, rfl⟩
  · exact ⟨[], Nat.zero_le _, by simp⟩

/-- The exchanges make at most one Input(). -/
theorem Exchanged.supply_cases {n : Nat} (h : Exchanged n s t) :
    t.inputs = s.inputs ∧ t.inputsRead = s.inputsRead ∨ t.inputs = s.inputs.tail ∧ t.inputsRead = s.inputsRead + 1 := by
  have hsupply := h.supply
  split at hsupply
  · exact .inr (Prod.mk.inj hsupply)
  · exact .inl (Prod.mk.inj hsupply)

/-- Settles O37: one write of OUT and one read of IN at most in each shape, EXR's included. -/
theorem atMostOneEventPerInstruction : Obligations.AtMostOneEventPerInstruction := by
  intro s t i h
  obtain ⟨-, hchange⟩ := exec_eq_next h
  have hsame {u : State} (ho : u.outputs = s.outputs) : ∃ e : List Nibble, e.length ≤ 1 ∧ u.outputs = s.outputs ++ e :=
    ⟨[], Nat.zero_le _, by rw [ho, List.append_nil]⟩
  cases hchange
  case put s' a k v _ _ hp | putAndSkip s' a k v _ _ hp =>
    obtain ⟨⟨-, -, -, -, -, hinputs, hcount, houtputs⟩, -⟩ := s'.putCell_frame a v k
    obtain ⟨e, he, hwrite⟩ := s'.writeCell_events a v
    refine ⟨⟨e, he, ?_⟩, ?_⟩
    · rw [← hp.outputs, ← hwrite]; exact houtputs
    · have hsupply := hp.supply
      rwa [← hinputs, ← hcount] at hsupply
  case setR0 hp | goOn hp => exact ⟨hsame hp.outputs, hp.supply⟩
  case modify a v _ => exact ⟨s.writeCell_events a v, .inl ⟨s.writeCell_inputs a v, s.writeCell_inputsRead a v⟩⟩
  case exchange n _ hn =>
    have hex := s.exchangeFirst_exchanged hn
    exact ⟨hex.events, hex.supply_cases⟩
  case setPcmPch | goTo | pop => exact ⟨hsame rfl, .inl ⟨rfl, rfl⟩⟩

/-! The invariant. -/

/-- A raw store keeps data memory in canonical form. -/
theorem State.setCell_wf (h : s.dm.wf 256) (a : DataAddr) (v : Nibble) : (s.setCell a v).dm.wf 256 :=
  Memory.write_wf v a.isLt h

/-- Every shape keeps data memory in canonical form. -/
theorem Change.dm_wf (h : Change i s t) (hs : s.dm.wf 256) : t.dm.wf 256 := by
  cases h
  case put _ a k v _ _ hp | putAndSkip _ a k v _ _ hp => exact State.putCell_wf a v k (hp.dm ▸ hs)
  case setR0 s' v _ hp => exact s'.setCell_wf (hp.dm ▸ hs) _ v
  case setPcmPch => exact State.setCell_wf (State.setCell_wf hs _ _) _ _
  case modify a v _ => rw [State.writeCell_dm]; exact Memory.write_wf v a.isLt hs
  case exchange n _ _ =>
    obtain ⟨-, -, -, -, -, -, -, hwf⟩ := s.exchangeFirst_frame n
    exact hwf hs
  case goOn hp => exact hp.dm ▸ hs
  case goTo => exact hs
  case pop => exact State.setCell_wf hs _ _

/-- A final write that completes passed its check. -/
theorem pcWriteFault_of_faultOf {a : DataAddr} {k : PcClass} (hw : s.finalWrite i = some (a, k)) (h : s.faultOf i = none) :
    s.pcWriteFault a k = none := by
  rw [State.faultOf, Option.or_eq_none_iff, Option.or_eq_none_iff, State.writeFault, hw] at h
  exact h.2.1

/-- Every shape that a completing instruction answers leaves SP within the stack. -/
theorem Change.sp_le (h : Change i s t) (hf : s.faultOf i = none) (hs : s.sp ≤ s.params.stackDepth) :
    t.sp ≤ s.params.stackDepth := by
  cases h
  case put _ a k v hw _ hp | putAndSkip _ a k v hw _ hp =>
    exact State.putCell_sp_le a v k hp.sp hp.params hs (pcWriteFault_of_faultOf hw hf)
  case setR0 hp | goOn hp => exact hp.sp.trans_le hs
  case modify => exact (s.writeCell_sp _ _).trans_le hs
  case exchange n _ _ =>
    obtain ⟨-, hsp, -⟩ := s.exchangeFirst_frame n
    exact hsp.trans_le hs
  case setPcmPch | goTo => exact hs
  case pop => exact (Nat.sub_le _ _).trans hs

/-- Settles O44: the fetch keeps the invariant, and each of its parts is kept by every shape. -/
theorem stepKeepsTheInvariant : Obligations.StepKeepsTheInvariant := by
  rintro s t ⟨hdm, hpm, hsp, hfit⟩ h
  obtain ⟨hfault, hchange⟩ := exec_eq_next h
  obtain ⟨hpm', hparams'⟩ := hchange.pm_params
  exact ⟨hchange.dm_wf hdm, hpm' ▸ hpm, hparams' ▸ hchange.sp_le hfault hsp, hparams' ▸ hfit⟩

/-! The ends of a run. -/

/-- Settles O43: the one cell a reset may list is WRFLAGS, and its bit 1 is RESET_IOPOS. -/
theorem resetIsALaunch : Obligations.ResetIsALaunch := by
  refine ⟨rfl, rfl, rfl, rfl, fun p hp => ?_⟩
  have hdm (b : Bool) : Memory.wf 256 (if b then [(0xF3, 0b0010#4)] else []) := by cases b <;> decide
  have hiopos (b : Bool) : (Memory.read (if b then [(0xF3, 0b0010#4)] else []) 0xF3).getLsbD 1 = b := by cases b <;> decide
  have hpm : (State.resetWith p).pm.wf 4096 := ⟨List.Pairwise.nil, nofun⟩
  exact ⟨⟨hdm p.resetIopos, hpm, hp.2, hp⟩, rfl, rfl, hiopos p.resetIopos, rfl, rfl⟩

/-- Settles O51: the word is JR -1, which takes back the increment. -/
theorem selfJumpChangesNothing : Obligations.SelfJumpChangesNothing := by
  intro s h
  have hfetched : s.fetched = .jrNn 0xFF := by
    rw [State.fetched, of_decide_eq_true h]
    decide
  have hpc : s.pc + 1 + jrOffset 0xFF = s.pc := by
    rw [add_assoc, show (1 : ProgAddr) + jrOffset 0xFF = 0 by decide, add_zero]
  rw [step_of_fetched_eq hfetched, exec_jrNn, State.afterFetch_pc, hpc]
  rfl

end Sys2Proof.Machine
end

section
/-!
Frames: what an instruction leaves unchanged when it answers a next state.
-/
namespace Sys2Proof.Machine

variable {s t : State} {i : Instr}

/-! Instructions with a final write. -/

/-- An instruction with a final write changes no cell but that one and, where the write calls, those of the level pushed; SP by
that call alone; and makes an event only where the cell is the active OUT location. -/
theorem exec_writer_frame {a : DataAddr} {k : PcClass} (hw : s.finalWrite i = some (a, k)) (h : exec i s = .next t) :
    (∀ d, d ≠ a → (t.sp = s.sp ∨ ¬ inStackLevel s.sp d) → t.cell d = s.cell d)
      ∧ (t.sp = s.sp ∨ a = jsrCell ∧ t.sp = s.sp + 1) ∧ (a ≠ s.outAddr → t.outputs = s.outputs) := by
  obtain ⟨s', v, hp, ht⟩ := exec_writer hw h
  obtain ⟨⟨-, -, -, -, -, -, -, houtputs⟩, -, -, hcells⟩ := s'.putCell_frame a v k
  have hsame : (∀ d, t.cell d = (s'.putCell a v k).cell d) ∧ t.sp = (s'.putCell a v k).sp
      ∧ t.outputs = (s'.putCell a v k).outputs := by
    rcases ht with ⟨-, rfl⟩ | ⟨-, rfl⟩ <;> exact ⟨fun _ => rfl, rfl, rfl⟩
  obtain ⟨hcell, hsp, hout⟩ := hsame
  refine ⟨fun d hd hlevel => ?_, ?_, fun ha => ?_⟩
  · rw [hsp, ← hp.sp] at hlevel
    rw [hcell, hcells d hd hlevel, hp.cell]
  · rw [hsp]
    exact (hp.putCell_sp a v k).imp id fun ⟨hsp', ha, _⟩ => ⟨ha, hsp'⟩
  · rw [hout, houtputs, State.writeCell_outputs, hp.outAddr, if_neg fun e => ha e.1, hp.outputs]

/-- Settles O38: each of them has the register's cell as its final write. -/
theorem registerWriterFrame : Obligations.RegisterWriterFrame := by
  intro s t x y n i hi h
  have hw : ∃ k, s.finalWrite i = some (regCell x, k) := by
    simp only [List.mem_cons, List.not_mem_nil, or_false] at hi
    rcases hi with rfl | rfl | rfl | rfl | rfl | rfl | rfl | rfl | rfl | rfl | rfl | rfl | rfl <;> exact ⟨_, rfl⟩
  obtain ⟨k, hw⟩ := hw
  obtain ⟨hcells, hsp, houtputs⟩ := exec_writer_frame hw h
  obtain ⟨hpm, hparams⟩ := (exec_eq_next h).2.pm_params
  exact ⟨hcells, hsp.imp id fun ⟨hx, hsp'⟩ => ⟨regCell_eq_jsrCell.1 hx, hsp'⟩, hpm, hparams, houtputs⟩

/-- Settles O39: the address is the final write's, and the flag table has no entry for the two. -/
theorem storeFrame : Obligations.StoreFrame := by
  intro s t x y nn a i hi h
  have hw : s.finalWrite i = some (a, .other) ∧ flagsWritten i = (false, false, false) := by
    rcases hi with ⟨rfl, rfl⟩ | ⟨rfl, rfl⟩ <;> exact ⟨rfl, rfl⟩
  obtain ⟨hw, hflags⟩ := hw
  obtain ⟨hcells, hsp, houtputs⟩ := exec_writer_frame hw h
  obtain ⟨hpm, hparams⟩ := (exec_eq_next h).2.pm_params
  obtain ⟨hc, hz, hv⟩ := flagsChangeOnlyByTable s t i h
  rw [hflags] at hc hz hv
  exact ⟨hcells, hsp, hc rfl, hz rfl, hv rfl, hpm, hparams, houtputs⟩

/-! Instructions that write R0 alone. -/

/-- R0's store in a prepared state changes no other cell, no SP, program word or parameter, and makes no event. -/
theorem Prepared.setR0_frame {s' : State} (hp : Prepared i s s') (v : Nibble) :
    (∀ a, a ≠ 0x00 → (s'.setCell 0x00 v).cell a = s.cell a) ∧ (s'.setCell 0x00 v).sp = s.sp
      ∧ (s'.setCell 0x00 v).outputs = s.outputs :=
  ⟨fun a ha => by rw [State.setCell_cell, if_neg ha, hp.cell], hp.sp, hp.outputs⟩

/-- Settles O40: a value stored in R0, and RET, which stores R0 and moves SP and `pc`. -/
theorem r0WriterFrame : Obligations.R0WriterFrame := by
  intro s t x y nn n i hi h
  obtain ⟨hpm, hparams⟩ := (exec_eq_next h).2.pm_params
  have hkind : storesR0 i = true ∨ i = .retR0N n := by
    simp only [List.mem_cons, List.not_mem_nil, or_false] at hi
    rcases hi with rfl | rfl | rfl | rfl | rfl | rfl | rfl <;> simp [storesR0]
  rcases hkind with hr0 | rfl
  · obtain ⟨s', v, hp, hexec⟩ := exec_of_storesR0 s hr0
    rw [hexec, finish_eq_next] at h
    obtain ⟨-, rfl⟩ := h
    obtain ⟨hcells, hsp, houtputs⟩ := hp.setR0_frame v
    exact ⟨hcells, fun _ => hsp, hpm, hparams, houtputs⟩
  · rw [exec_retR0N, finish_eq_next] at h
    obtain ⟨-, rfl⟩ := h
    exact ⟨fun a ha => (s.setCell_cell _ a n).trans (if_neg ha), fun hne => absurd rfl hne, hpm, hparams, rfl⟩

/-! Instructions that change one bit of a cell, and those that store nothing. -/

/-- Settles O41: the three write the cell RG names and read no input. -/
theorem bitModifierFrame : Obligations.BitModifierFrame := by
  intro s t g m i hi h
  have hwrite : ∃ v, t = s.writeCell (s.modifyAddr g) v := by
    simp only [List.mem_cons, List.not_mem_nil, or_false] at hi
    rcases hi with rfl | rfl | rfl
    · exact ⟨_, (Host.Outcome.next.inj ((endModify_eq s g (setBit · m)).symm.trans h)).symm⟩
    · exact ⟨_, (Host.Outcome.next.inj ((endModify_eq s g (clearBit · m)).symm.trans h)).symm⟩
    · exact ⟨_, (Host.Outcome.next.inj ((endModify_eq s g (toggleBit · m)).symm.trans h)).symm⟩
  obtain ⟨v, rfl⟩ := hwrite
  obtain ⟨hpc, hsp, hc, hz, hv, hpm, hparams, hinputs, hcount⟩ := s.writeCell_frame (s.modifyAddr g) v
  refine ⟨fun a ha => ?_, hpc, hsp, hc, hz, hv, hpm, hparams, hinputs, hcount, fun hout => ?_⟩
  · rw [State.writeCell_cell, if_neg ha]
  · rw [State.writeCell_outputs, if_neg fun e => hout e.1]

/-- Settles O42: JR and SKIP set at most `pc`, CP and BIT read and set flags. -/
theorem nothingStoredFrame : Obligations.NothingStoredFrame := by
  intro s t nn n g f m i hi h
  have hshape : Prepared i s t ∨ ∃ p, t = s.setPc p := by
    simp only [List.mem_cons, List.not_mem_nil, or_false] at hi
    rcases hi with rfl | rfl | rfl | rfl
    · exact .inr ⟨_, (Host.Outcome.next.inj h).symm⟩
    · exact .inl (Host.Outcome.next.inj h ▸ ((Prepared.afterReads _ s _).setC rfl _).setZ rfl _)
    · exact .inl (Host.Outcome.next.inj h ▸ (Prepared.afterReads _ s _).setZ rfl _)
    · obtain rfl := Host.Outcome.next.inj h
      split
      · exact .inr ⟨_, rfl⟩
      · exact .inl (.refl _ s)
  rcases hshape with hp | ⟨p, rfl⟩
  · exact ⟨hp.cell, hp.sp, hp.pm, hp.params, hp.outputs⟩
  · exact ⟨fun _ => rfl, rfl, rfl, rfl, rfl⟩

end Sys2Proof.Machine
end

section
/-!
Writes of JSR and PCL through any instruction: under OTHER_PC_WRITES = plain, under trigger, and the call that RET takes back.
-/
namespace Sys2Proof.Machine

variable {s t : State} {i : Instr}

/-! Where a final write below page 15 stops, and what it does where it starts no transfer. -/

/-- A cell the spec describes passes the check of page 15 (R47). -/
theorem State.sfrFault_none (s : State) {a : DataAddr} (h : ¬ isUndescribedSfr a) (k : Access) : s.sfrFault a k = none :=
  Option.eq_none_iff_forall_ne_some.2 fun _ hf => h (State.sfrFault_eq_some.1 hf).2.1

/-- Below page 15 the one check of an instruction with a final write is that of the write. -/
theorem State.faultOf_of_finalWrite {a : DataAddr} {k : PcClass} (hw : s.finalWrite i = some (a, k)) (ha : a.toNat < 0xF0) :
    s.faultOf i = s.pcWriteFault a k := by
  have hwrite : s.writeFault i = s.pcWriteFault a k := by rw [State.writeFault, hw]; rfl
  have hown : s.ownFault i = none := no_ownFault (.inl (by rw [hw]; nofun))
  have haccess : s.accessFault i = none := by
    refine Option.eq_none_iff_forall_ne_some.2 fun f hf => ?_
    obtain ⟨b, acc, hm, -, ⟨hpage, -⟩, -⟩ := State.accessFault_eq_some.1 hf
    rw [← finalWrite_of_memoryAccess hm hw] at hpage
    omega
  rw [State.faultOf, haccess, hwrite, hown, Option.none_or, Option.or_none]

/-- A write that starts no transfer is the write alone (R143). -/
theorem State.putCell_of_not_triggers {a : DataAddr} {k : PcClass} (h : s.triggers a k = false) (v : Nibble) :
    s.putCell a v k = s.writeCell a v := by
  rw [State.putCell, State.pcWriteEffect, State.triggers_congr a k (s.writeCell_params a v), h, if_neg Bool.false_ne_true]

/-- A DSZ that skips is one whose write starts no transfer. -/
theorem triggers_of_skipsNext {a : DataAddr} {k : PcClass} (hw : s.finalWrite i = some (a, k)) (h : s.skipsNext i) :
    s.triggers a k = false := by
  cases i
  case dszRy => cases hw; exact h.2
  all_goals cases h

/-- Of the writers of a register only DSZ skips. -/
theorem skipsNext_iff {x : Reg} {k : PcClass} (hw : s.finalWrite i = some (regCell x, k))
    (ht : s.triggers (regCell x) .other = false) : s.skipsNext i ↔ i = .dszRy x ∧ s.reg x = 1 := by
  cases i
  case dszRy y =>
    obtain rfl : y = x := regCell_inj.1 (Prod.mk.inj (Option.some.inj hw)).1
    exact ⟨fun h => ⟨rfl, h.1⟩, fun h => ⟨h.2, ht⟩⟩
  all_goals exact ⟨False.elim, fun h => by cases h.1⟩

/-- The instructions whose write of a register is of class other (R144), but for EXR. -/
theorem finalWrite_of_other_writer {x y p q : Reg}
    (hi : i ∈ ([.addRxRy x y, .adcRxRy x y, .subRxRy x y, .sbbRxRy x y, .orRxRy x y, .andRxRy x y, .xorRxRy x y,
      .movNnR0 (x.setWidth 8), .dszRy x, .rrcRy x] : List Instr) ∨ i = .movXyR0 p q ∧ s.pairOf p q = x.setWidth 8) :
    s.finalWrite i = some (regCell x, .other) := by
  rcases hi with hi | ⟨rfl, hpair⟩
  · simp only [List.mem_cons, List.not_mem_nil, or_false] at hi
    rcases hi with rfl | rfl | rfl | rfl | rfl | rfl | rfl | rfl | rfl | rfl <;> rfl
  · exact congrArg (fun a => some (a, PcClass.other)) hpair

/-- A register's cell lies below page 15. -/
theorem regCell_toNat_lt (x : Reg) : (regCell x).toNat < 0x10 := by revert x; decide

/-- Settles O28: under plain no write starts a transfer or stops. -/
theorem otherWritesArePlain : Obligations.OtherWritesArePlain := by
  intro s x y p q i hplain hx hi
  have hw := finalWrite_of_other_writer hi
  have ht (u : State) (hu : u.params = s.params) : u.triggers (regCell x) .other = false := by
    simp [State.triggers, hu, hplain]
  have hreg : s.reg x = s.cell (regCell x) := State.readCell_plain (by
    rcases hx with rfl | rfl <;> exact s.readsInput_elsewhere (by decide) (by decide))
  have hfault : s.faultOf i = none := by
    rw [State.faultOf_of_finalWrite hw ((regCell_toNat_lt x).trans (by decide))]
    simp [State.pcWriteFault, ht s rfl, hplain]
  obtain ⟨t, h⟩ := completes_of_faultOf hfault
  obtain ⟨s', v, hp, hcases⟩ := exec_writer hw h
  obtain ⟨hcells, -, -⟩ := exec_writer_frame hw h
  rw [State.putCell_of_not_triggers (ht s' hp.params)] at hcases
  have hskips := skipsNext_iff hw (ht s rfl)
  rw [hreg] at hskips
  have hsp : t.sp = s.sp := by
    rcases hcases with ⟨-, rfl⟩ | ⟨-, rfl⟩ <;> exact (s'.writeCell_sp _ _).trans hp.sp
  refine ⟨t, h, hsp, ?_, fun a ha => hcells a ha (.inl hsp)⟩
  rcases hcases with ⟨hskip, rfl⟩ | ⟨hskip, rfl⟩
  · exact ((s'.writeCell_pc _ _).trans hp.pc).trans (if_neg (hskips.not.1 hskip)).symm
  · exact (congrArg (· + 1) ((s'.writeCell_pc _ _).trans hp.pc)).trans (if_pos (hskips.1 hskip)).symm

/-! Transfers. -/

/-- Where a final write starts a transfer, the instruction is that write and the transfer. -/
theorem exec_transfers {a : DataAddr} {k : PcClass} (hw : s.finalWrite i = some (a, k)) (ht : s.triggers a k = true)
    (h : exec i s = .next t) :
    ∃ s' v, Prepared i s s' ∧ t = if a = jsrCell then (s'.writeCell a v).call else (s'.writeCell a v).jump := by
  obtain ⟨s', v, hp, ⟨-, rfl⟩ | ⟨hskip, -⟩⟩ := exec_writer hw h
  · refine ⟨s', v, hp, ?_⟩
    rw [State.putCell, State.pcWriteEffect, State.triggers_congr a k ((s'.writeCell_params a v).trans hp.params), if_pos ht]
  · rw [triggers_of_skipsNext hw hskip] at ht
    cases ht

/-- A write of PCL that transfers goes to PCH:PCM:PCL with the value written (R141). -/
theorem exec_jumps {k : PcClass} (hw : s.finalWrite i = some (pclCell, k)) (ht : s.triggers pclCell k = true)
    (h : exec i s = .next t) : t.pc = s.cell 0x0F ++ s.cell 0x0E ++ t.cell 0x0D ∧ t.sp = s.sp := by
  obtain ⟨s', v, hp, rfl⟩ := exec_transfers hw ht h
  rw [if_neg (by decide), s'.writeCell_elsewhere v (by decide) (by decide), s'.setCell_pcl_jump, hp.cell, hp.cell]
  refine ⟨?_, hp.sp⟩
  have hpcl : (s'.setCell pclCell v).cell pclCell = v := by rw [State.setCell_cell, if_pos rfl]
  exact congrArg (s.cell 0x0F ++ s.cell 0x0E ++ ·) hpcl.symm

/-- A write of JSR that transfers goes to PCH:PCM:JSR with the value written, and pushes the next instruction's address
(R142). -/
theorem exec_calls {k : PcClass} (hw : s.finalWrite i = some (jsrCell, k)) (ht : s.triggers jsrCell k = true)
    (hsp : s.sp < 5) (h : exec i s = .next t) :
    t.pc = s.cell 0x0F ++ s.cell 0x0E ++ t.cell 0x0C ∧ t.sp = s.sp + 1 ∧ t.returnAddr s.sp = s.pc := by
  obtain ⟨s', v, hp, rfl⟩ := exec_transfers hw ht h
  rw [if_pos rfl, s'.writeCell_elsewhere v (by decide) (by decide)]
  have hsp' : (s'.setCell jsrCell v).sp < 5 := hp.sp.trans_lt hsp
  have hcell {a : DataAddr} (ha : a ≠ jsrCell) : (s'.setCell jsrCell v).cell a = s.cell a := by
    rw [State.setCell_cell, if_neg ha, hp.cell]
  refine ⟨?_, congrArg (· + 1) hp.sp, ?_⟩
  · rw [State.call_pc hsp', State.call_cell hsp' (by decide), hcell (by decide), hcell (by decide)]
  · rw [← hp.sp, ← hp.pc]
    exact State.call_returnAddr hsp'

/-- Settles O29: under trigger the write transfers, so it is the jump or the call, and DSZ adds no skip. -/
theorem otherWritesTrigger : Obligations.OtherWritesTrigger := by
  intro s x y p q i htrigger hdepth hx hi
  have hw := finalWrite_of_other_writer hi
  have ht : s.triggers (regCell x) .other = true :=
    State.triggers_iff.2 ⟨by rcases hx with ⟨rfl, -⟩ | rfl <;> decide, .inr htrigger⟩
  have hfault : s.faultOf i = none := by
    rw [State.faultOf_of_finalWrite hw ((regCell_toNat_lt x).trans (by decide)), State.pcWriteFault, if_pos ht]
    rcases hx with ⟨rfl, hroom⟩ | rfl
    · exact s.callFault_eq_none.2 hroom
    · rfl
  obtain ⟨t, h⟩ := completes_of_faultOf hfault
  refine ⟨t, h, ?_⟩
  rcases hx with ⟨rfl, hroom⟩ | rfl
  · obtain ⟨hpc, hsp, hret⟩ := exec_calls hw ht (by omega) h
    exact ⟨hpc, hsp, fun _ => hret⟩
  · obtain ⟨hpc, hsp⟩ := exec_jumps hw ht h
    exact ⟨hpc, hsp, fun h => absurd h (by decide)⟩

/-- Settles O50: the level RET pops is the one the call pushed. -/
theorem returnResumesAfterTheCall : Obligations.ReturnResumesAfterTheCall := by
  intro s t u y n m i hdepth hi h husp hlevel
  have hw : s.finalWrite i = some (jsrCell, .named) := by
    simp only [List.mem_cons, List.not_mem_nil, or_false] at hi
    rcases hi with rfl | rfl | rfl | rfl <;> rfl
  have ht : s.triggers jsrCell .named = true := State.triggers_iff.2 ⟨.inl rfl, .inl rfl⟩
  have hroom : s.sp < s.params.stackDepth := by
    have hcheck := pcWriteFault_of_faultOf hw (exec_eq_next h).1
    rw [State.pcWriteFault, if_pos ht, if_pos rfl] at hcheck
    exact s.callFault_eq_none.1 hcheck
  obtain ⟨-, hsp, hret⟩ := exec_calls hw ht (by omega) h
  have husp' : u.sp = s.sp + 1 := husp.trans hsp
  have hpopped : u.returnAddr s.sp = s.pc := by
    rw [← hret, State.returnAddr, State.returnAddr, hlevel _ (.inl rfl), hlevel _ (.inr (.inl rfl)), hlevel _ (.inr (.inr rfl))]
  refine ⟨_, by rw [exec_retR0N, if_neg (by omega)]; rfl, ?_, ?_, ?_⟩
  · rw [State.setPc_pc, husp', Nat.add_sub_cancel, u.setCell_returnAddr (by decide) m (by omega), hpopped]
  · rw [State.setPc_sp, State.setSp_sp, husp', Nat.add_sub_cancel]
  · exact (u.setCell_cell _ _ _).trans (if_pos rfl)

end Sys2Proof.Machine
end

section
/-!
Data memory as a whole: canonical memories that read alike are equal, a store of what a cell holds changes nothing, and a store is
what the next load gives; the I/O locations.
-/
namespace Sys2Proof.Machine

/-! Equality of memories. -/

variable {w size : Nat}

theorem Memory.wf_tail {k : Nat} {u : BitVec w} {m : Memory w} (h : Memory.wf size ((k, u) :: m)) : Memory.wf size m :=
  ⟨(List.pairwise_cons.1 h.1).2, fun e he => h.2 e (List.mem_cons_of_mem _ he)⟩

/-- The entry a canonical memory begins with is not what an unlisted cell reads as. -/
theorem Memory.head_ne {k : Nat} {u : BitVec w} {m : Memory w} (h : Memory.wf size ((k, u) :: m)) : u ≠ Memory.unlisted :=
  (h.2 (k, u) List.mem_cons_self).2

/-- Nothing is listed before the first entry of a canonical memory, nor in the rest up to it. -/
theorem Memory.read_before {k a : Nat} {u : BitVec w} {m : Memory w} (h : Memory.wf size ((k, u) :: m)) (ha : a < k) :
    Memory.read ((k, u) :: m) a = Memory.unlisted :=
  Memory.read_below fun e he => (List.mem_cons.1 he).elim (fun e' => e' ▸ ha) fun he' =>
    ha.trans ((List.pairwise_cons.1 h.1).1 e he')

theorem Memory.read_tail_head {k : Nat} {u : BitVec w} {m : Memory w} (h : Memory.wf size ((k, u) :: m)) :
    m.read k = Memory.unlisted :=
  Memory.read_below (List.pairwise_cons.1 h.1).1

theorem Memory.read_cons_same (k : Nat) (u : BitVec w) (m : Memory w) : Memory.read ((k, u) :: m) k = u := if_pos rfl

theorem Memory.read_cons_other {k a : Nat} (u : BitVec w) (m : Memory w) (h : a ≠ k) :
    Memory.read ((k, u) :: m) a = m.read a := if_neg h

/-- Canonical memories that read alike begin with the same address. -/
theorem Memory.head_le {k k' : Nat} {u u' : BitVec w} {m m' : Memory w} (h : Memory.wf size ((k, u) :: m))
    (h' : Memory.wf size ((k', u') :: m'))
    (hread : ∀ a, Memory.read ((k, u) :: m) a = Memory.read ((k', u') :: m') a) : k' ≤ k := by
  by_contra hlt
  have := hread k
  rw [Memory.read_cons_same, Memory.read_before h' (by omega)] at this
  exact Memory.head_ne h this

/-- Settles O45, by induction on the first memory: the lists have the same head, and tails that read alike. -/
theorem memoriesThatReadAlikeAreEqual : Obligations.MemoriesThatReadAlikeAreEqual := by
  intro w size m
  induction m with
  | nil =>
    intro m' _ h' hread
    cases m' with
    | nil => rfl
    | cons e m' => exact absurd ((hread e.1).trans (Memory.read_cons_same _ _ _)).symm (Memory.head_ne h')
  | cons e m ih =>
    obtain ⟨k, u⟩ := e
    intro m' h h' hread
    cases m' with
    | nil => exact absurd ((Memory.read_cons_same k u m).symm.trans (hread k)) (Memory.head_ne h)
    | cons e' m' =>
      obtain ⟨k', u'⟩ := e'
      obtain rfl : k = k' := le_antisymm (Memory.head_le h' h fun a => (hread a).symm) (Memory.head_le h h' hread)
      have hu : u = u' := by simpa only [Memory.read_cons_same] using hread k
      have htail : m = m' := by
        refine ih m' (Memory.wf_tail h) (Memory.wf_tail h') fun a => ?_
        by_cases ha : a = k
        · rw [ha, Memory.read_tail_head h, Memory.read_tail_head h']
        · simpa only [Memory.read_cons_other _ _ ha] using hread a
      rw [hu, htail]

/-- In a canonical data memory, storing what a cell holds changes nothing. -/
theorem State.setCell_cell_self {s : State} (h : s.dm.wf 256) (a : DataAddr) : s.setCell a (s.cell a) = s := by
  have hdm : s.dm.write a.toNat (s.cell a) = s.dm := by
    refine memoriesThatReadAlikeAreEqual 4 256 _ _ (Memory.write_wf _ a.isLt h) h fun b => ?_
    rw [Memory.read_write_eq]
    split
    case isTrue hb => rw [hb]; rfl
    case isFalse => rfl
  rw [State.setCell, hdm]

/-! Loads and stores that no check stops. -/

variable {s : State} {a : DataAddr}

theorem exec_movNnR0_plain (hsfr : ¬ isUndescribedSfr a) (h12 : a ≠ jsrCell) (h13 : a ≠ pclCell) :
    exec (.movNnR0 a) s = .next (s.writeCell a (s.cell 0x00)) := by
  obtain ⟨-, hfault, -⟩ := s.pcWrite_elsewhere .other h12 h13
  obtain ⟨-, -, heffect⟩ := (s.writeCell a (s.cell 0x00)).pcWrite_elsewhere .other h12 h13
  rw [exec_movNnR0, endWithStore_next (s.sfrFault_none hsfr _) hfault rfl rfl rfl, State.putCell, heffect]

theorem exec_movR0Nn_plain (hsfr : ¬ isUndescribedSfr a) :
    exec (.movR0Nn a) s = .next ((s.afterReads [a]).setCell 0x00 (s.readCell a)) := by
  rw [exec_movR0Nn, s.sfrFault_none hsfr]
  rfl

/-- Settles O46: the cell is a plain one, so it reads what was written, and R0 is another. -/
theorem storeThenLoad : Obligations.StoreThenLoad := by
  intro s nn v hpage h11 h12 h13 h0
  have hsfr : ¬ isUndescribedSfr nn := fun h => by have := h.1; omega
  refine ⟨_, _, exec_movNnR0_plain hsfr h12 h13, exec_movR0Nn_plain hsfr, ?_⟩
  have hin (t : State) : t.readsInput nn = false :=
    t.readsInput_elsewhere h11 fun h => absurd hpage (by rw [h]; decide)
  rw [State.readCell_plain (hin _), State.afterReads_singleton _ (hin _)]
  have hstored : ((s.writeCell nn (s.cell 0x00)).setCell 0x00 v).cell nn = s.cell 0x00 := by
    rw [State.setCell_cell, if_neg h0, State.writeCell_cell, if_pos rfl]
  exact ⟨by rw [State.setCell_cell, if_pos rfl, hstored], by rw [State.setCell_cell, if_neg h0, hstored]⟩

/-! The I/O locations. -/

theorem State.inAddr_cases (s : State) : s.inAddr = 0x0B ∨ s.inAddr = 0xFB := by
  unfold State.inAddr
  split
  · exact .inr rfl
  · exact .inl rfl

/-- A load from the active IN location takes the next nibble of the supply (R44). -/
theorem exec_load_in {n : Nibble} {rest : List Nibble} (hio : s.params.ioModel = .external) (hin : s.inputs = n :: rest) :
    exec (.movR0Nn s.inAddr) s = .next { s.setCell 0x00 n with inputs := rest, inputsRead := s.inputsRead + 1 } := by
  have hsfr : ¬ isUndescribedSfr s.inAddr := by rcases s.inAddr_cases with h | h <;> rw [h] <;> decide
  have hreads : s.readsInput s.inAddr = true := decide_eq_true ⟨rfl, hio⟩
  have hvalue : s.readCell s.inAddr = n := by rw [State.readCell, if_pos hreads, State.input, hin]
  have hafter : s.afterReads [s.inAddr] = s.tookInput := by simp [State.afterReads, hreads]
  rw [exec_movR0Nn_plain hsfr, hvalue, hafter, State.tookInput, hin]
  rfl

/-- A store to the active OUT location is one event (R45). -/
theorem exec_store_out (hio : s.params.ioModel = .external) :
    exec (.movNnR0 s.outAddr) s = .next ((s.setCell s.outAddr (s.cell 0x00)).emit (s.cell 0x00)) := by
  have hplain : ¬ isUndescribedSfr s.outAddr ∧ s.outAddr ≠ jsrCell ∧ s.outAddr ≠ pclCell := by
    rcases s.outAddr_cases with h | h <;> rw [h] <;> decide
  obtain ⟨hsfr, h12, h13⟩ := hplain
  rw [exec_movNnR0_plain hsfr h12 h13, State.writeCell, if_pos ⟨rfl, hio⟩]

/-- Settles O30: the two locations as WRFLAGS bit 1 names them, before and after a store to WRFLAGS. -/
theorem inputAndOutput : Obligations.InputAndOutput := by
  intro s
  refine ⟨fun n rest hio hin => exec_load_in hio hin, fun hio a ha => ?_, _, ?_, rfl, ?_, ?_⟩
  · obtain rfl : a = s.outAddr := ha
    exact exec_store_out hio
  · rw [exec_movNnR0_plain (by decide) (by decide) (by decide), s.writeCell_elsewhere _ (by decide) (by decide)]
  · rw [State.inAddr, State.iopos, wrflagsCell, State.setCell_cell, if_pos rfl]
  · rw [State.outAddr, State.iopos, wrflagsCell, State.setCell_cell, if_pos rfl]

end Sys2Proof.Machine
end

section
/-!
Sequences of two instructions and the source's idioms, on registers that are neither JSR nor PCL nor the active IN register.
-/
namespace Sys2Proof.Machine

variable {s : State}

/-- What ADD, ADC, SUB, SBB answer on plain registers, with the result and flags `q`: RX, C, and the rest as it was. -/
structure ArithDone (s t : State) (x : Reg) (q : AluResult) : Prop where
  c : t.c = q.c
  result : t.cell (regCell x) = q.r
  rest : ∀ r : Reg, r ≠ x → t.cell (regCell r) = s.cell (regCell r)
  wrflags : t.cell 0xF3 = s.cell 0xF3
  params : t.params = s.params

/-- A plain register is read raw. -/
theorem State.reg_plain {r : Reg} (h : s.readsInput (regCell r) = false) : s.reg r = s.cell (regCell r) :=
  State.readCell_plain h

theorem endArith_plain {x y : Reg} (h12 : x ≠ 12) (h13 : x ≠ 13) (hx : s.readsInput (regCell x) = false)
    (hy : s.readsInput (regCell y) = false) (q : AluResult) : ∃ t, endArith s x y q = .next t ∧ ArithDone s t x q := by
  have hjsr : regCell x ≠ jsrCell := regCell_eq_jsrCell.not.2 h12
  have hpcl : regCell x ≠ pclCell := regCell_eq_pclCell.not.2 h13
  have hstart (t : State) : t.triggers (regCell x) .other = false := (t.pcWrite_elsewhere .other hjsr hpcl).1
  obtain ⟨-, hfault, -⟩ := s.pcWrite_elsewhere .other hjsr hpcl
  have hreads : s.afterReads [regCell x, regCell y] = s := by simp [State.afterReads, hx, hy]
  refine ⟨_, endArith_next hfault y q, ?_⟩
  rw [hreads, State.putCell_of_not_triggers (hstart _)]
  exact {
    c := State.writeCell_c _ _ _
    result := by rw [State.writeCell_cell, if_pos rfl]
    rest := fun r hr => by rw [State.writeCell_cell, if_neg (regCell_inj.not.2 hr)]; rfl
    wrflags := by
      have hne : (0xF3 : DataAddr) ≠ regCell x := fun e => absurd (regCell_toNat_lt x) (by rw [← e]; decide)
      rw [State.writeCell_cell, if_neg hne]
      rfl
    params := State.writeCell_params _ _ _ }

/-- A second instruction after the first: registers stay plain. -/
theorem ArithDone.readsInput {t : State} {x : Reg} {q : AluResult} (h : ArithDone s t x q) {r : Reg}
    (hr : s.readsInput (regCell r) = false) : t.readsInput (regCell r) = false :=
  (State.readsInput_congr h.wrflags h.params _).trans hr

/-! The results as numbers. -/

/-- A sum is the result and 16 times the carry. -/
theorem addNibbles_value (a b : Nibble) (cin : Bool) :
    (if (addNibbles a b cin).c then 16 else 0) + (addNibbles a b cin).r.toNat = a.toNat + b.toNat + cin.toNat := by
  have ha := a.isLt
  have hb := b.isLt
  have hcin := cin.toNat_le
  simp only [addNibbles, BitVec.toNat_ofNat, decide_eq_true_eq]
  split <;> omega

/-- A difference is the result, short of 16 where it borrows. -/
theorem subNibbles_value (a b : Nibble) (bin : Bool) :
    (subNibbles a b bin).r.toNat + b.toNat + bin.toNat = a.toNat + if (subNibbles a b bin).c then 0 else 16 := by
  have ha := a.isLt
  have hb := b.isLt
  have hbin := bin.toNat_le
  rw [subNibbles_r_borrow, subNibbles_c_borrow]
  simp only [BitVec.toNat_ofNat, decide_eq_true_eq]
  split <;> omega

/-- The carry of the low nibbles is worth 16, so adding nibble by nibble adds bytes. -/
theorem addNibbles_bytes (a1 a0 b1 b0 : Nibble) {q0 q1 : AluResult} (h0 : q0 = addNibbles a0 b0 false)
    (h1 : q1 = addNibbles a1 b1 q0.c) :
    (if q1.c then 256 else 0) + 16 * q1.r.toNat + q0.r.toNat = (16 * a1.toNat + a0.toNat) + (16 * b1.toNat + b0.toNat) := by
  have hlow := addNibbles_value a0 b0 false
  have hhigh := addNibbles_value a1 b1 q0.c
  rw [← h0, Bool.toNat_false] at hlow
  rw [← h1, toNat_carry] at hhigh
  split_ifs at * <;> omega

/-- The borrow of the low nibbles is worth 16, so subtracting nibble by nibble subtracts bytes. -/
theorem subNibbles_bytes (a1 a0 b1 b0 : Nibble) {q0 q1 : AluResult} (h0 : q0 = subNibbles a0 b0 false)
    (h1 : q1 = subNibbles a1 b1 (!q0.c)) :
    16 * q1.r.toNat + q0.r.toNat + (16 * b1.toNat + b0.toNat) = (16 * a1.toNat + a0.toNat) + (if q1.c then 0 else 256) := by
  have hlow := subNibbles_value a0 b0 false
  have hhigh := subNibbles_value a1 b1 (!q0.c)
  rw [← h0, Bool.toNat_false] at hlow
  rw [← h1, toNat_borrow] at hhigh
  split_ifs at * <;> omega

/-- Two arithmetic instructions in a row on plain registers: the second works on the registers as they were and on the C of the
first, and leaves the result of the first alone. -/
theorem endArith_twice {x0 x1 y0 y1 : Reg} (h0 : x0 ≠ 12) (h0' : x0 ≠ 13) (h1 : x1 ≠ 12) (h1' : x1 ≠ 13) (hx : x1 ≠ x0)
    (hy : y1 ≠ x0) (hplain : ∀ r, r ∈ [x0, x1, y0, y1] → s.readsInput (regCell r) = false) (q : AluResult)
    (f : Nibble → Nibble → Bool → AluResult) :
    ∃ t u, endArith s x0 y0 q = .next t ∧ endArith t x1 y1 (f (t.reg x1) (t.reg y1) t.c) = .next u
      ∧ u.c = (f (s.cell (regCell x1)) (s.cell (regCell y1)) q.c).c
      ∧ u.cell (regCell x1) = (f (s.cell (regCell x1)) (s.cell (regCell y1)) q.c).r ∧ u.cell (regCell x0) = q.r := by
  obtain ⟨t, ht, hfirst⟩ := endArith_plain h0 h0' (hplain x0 (by simp)) (hplain y0 (by simp)) q
  have hx1 := hfirst.readsInput (hplain x1 (by simp))
  have hy1 := hfirst.readsInput (hplain y1 (by simp))
  obtain ⟨u, hu, hsecond⟩ := endArith_plain h1 h1' hx1 hy1 (f (t.reg x1) (t.reg y1) t.c)
  have hoperands : f (t.reg x1) (t.reg y1) t.c = f (s.cell (regCell x1)) (s.cell (regCell y1)) q.c := by
    rw [State.reg_plain hx1, State.reg_plain hy1, hfirst.rest x1 hx, hfirst.rest y1 hy, hfirst.c]
  refine ⟨t, u, ht, hu, ?_, ?_, (hsecond.rest x0 hx.symm).trans hfirst.result⟩
  · rw [hsecond.c, hoperands]
  · rw [hsecond.result, hoperands]

/-- Settles O47: the second instruction takes the carry of the first. -/
theorem addThenAdcAddsBytes : Obligations.AddThenAdcAddsBytes := by
  intro s x0 x1 y0 y1 h0 h0' h1 h1' hx hy hplain
  obtain ⟨t, u, ht, hu, hc, hhigh, hlow⟩ := endArith_twice h0 h0' h1 h1' hx hy hplain
    (addNibbles (s.reg x0) (s.reg y0) false) addNibbles
  refine ⟨t, u, ht, hu, ?_⟩
  rw [hc, hhigh, hlow]
  refine addNibbles_bytes _ _ _ _ ?_ rfl
  rw [State.reg_plain (hplain x0 (by simp)), State.reg_plain (hplain y0 (by simp))]

/-- Settles O48: the second instruction takes the borrow of the first. -/
theorem subThenSbbSubtractsBytes : Obligations.SubThenSbbSubtractsBytes := by
  intro s x0 x1 y0 y1 h0 h0' h1 h1' hx hy hplain
  obtain ⟨t, u, ht, hu, hc, hhigh, hlow⟩ := endArith_twice h0 h0' h1 h1' hx hy hplain
    (subNibbles (s.reg x0) (s.reg y0) false) (fun a b c => subNibbles a b (!c))
  refine ⟨t, u, ht, hu, ?_⟩
  rw [hc, hhigh, hlow]
  refine subNibbles_bytes _ _ _ _ ?_ rfl
  rw [State.reg_plain (hplain x0 (by simp)), State.reg_plain (hplain y0 (by simp))]

/-! The idioms (R75). -/

/-- Setting C with R0's own value leaves data memory as it was; `k` is the C of the idiom (R166 to R168). -/
theorem endLiteralLogic_self (h : s.dm.wf 256) {r : Nibble} (hr : r = s.cell 0x00) (k : Bool) :
    endLiteralLogic s r k = .next { s with c := k, z := decide (s.cell 0x00 = 0) } := by
  subst hr
  rw [endLiteralLogic_eq, ← isZero_eq]
  exact congrArg Host.Outcome.next
    (State.setCell_cell_self (s := { s with c := k, z := decide (s.cell 0x00 = 0) }) h 0x00)

/-- MOV R0,R0 does nothing (R225). -/
theorem exec_idiomNop (h : s.dm.wf 256) : exec idiomNop s = .next s := by
  have hr0 : s.reg 0 = s.cell 0x00 := s.reg_zero
  have hplain : s.readsInput (regCell 0) = false := s.readsInput_zero
  have hstore : s.writeCell (regCell 0) (s.cell 0x00) = s :=
    (s.writeCell_zero _).trans (State.setCell_cell_self h _)
  obtain ⟨-, -, hmov⟩ := movToRegister s 0 0 0
  have hexec : exec idiomNop s = .next ((s.afterReads [regCell 0]).writeCell (regCell 0) (s.reg 0)) :=
    (hmov fun h => absurd h (by decide)).1
  rw [hexec, s.afterReads_singleton hplain, hr0, hstore]

/-- A nibble added to itself is shifted left, the carry in below, bit 3 out as the carry. -/
theorem addNibbles_self (a : Nibble) (c : Bool) :
    (∀ j, j < 3 → (addNibbles a a c).r.getLsbD (j + 1) = a.getLsbD j) ∧ (addNibbles a a c).r.getLsbD 0 = c
      ∧ (addNibbles a a c).c = a.getLsbD 3 := by
  revert a c
  decide

/-- Settles O52: the C idioms store R0's own value, and the shifts add a register to itself. -/
theorem idiomsDoWhatTheyStandFor : Obligations.IdiomsDoWhatTheyStandFor := by
  rintro s ⟨hdm, -⟩
  have hr0 : s.reg 0 = s.cell 0x00 := s.reg_zero
  refine ⟨by decide, by decide, by decide, by decide, fun x => ⟨rfl, rfl⟩, ?_, ?_, ?_, exec_idiomNop hdm, ?_⟩
  · exact endLiteralLogic_self hdm (by rw [hr0]; exact BitVec.or_zero) true
  · exact endLiteralLogic_self hdm (by rw [hr0]; exact BitVec.and_allOnes) false
  · exact endLiteralLogic_self hdm (by rw [hr0]; exact BitVec.xor_zero) (!s.c)
  · intro x h12 h13 hx _
    obtain ⟨t, ht, hsl⟩ := endArith_plain h12 h13 hx hx (addNibbles (s.reg x) (s.reg x) false)
    obtain ⟨u, hu, hrlc⟩ := endArith_plain h12 h13 hx hx (addNibbles (s.reg x) (s.reg x) s.c)
    obtain ⟨hslBits, hslLow, hslC⟩ := addNibbles_self (s.cell (regCell x)) false
    obtain ⟨hrlcBits, hrlcLow, hrlcC⟩ := addNibbles_self (s.cell (regCell x)) s.c
    refine ⟨t, u, ht, hu, ?_⟩
    rw [hsl.result, hrlc.result, hsl.c, hrlc.c, State.reg_plain hx]
    exact ⟨fun j hj => ⟨hslBits j hj, hrlcBits j hj⟩, hslLow, hrlcLow, hslC, hrlcC⟩

end Sys2Proof.Machine
end

section
/-!
The assembler's statements: each operand check of the well-formedness table passes exactly where the assembler reads the operand.
-/
namespace Sys2Proof.Machine

/-! One operand. -/

/-- A value is read exactly where its range check passes. -/
theorem isSome_ite {α : Type} {p : Prop} [Decidable p] (x : α) : (if p then some x else none).isSome = decide p := by
  split <;> simp [*]

theorem asReg_isSome (a : Operand) : (asReg a).isSome = a.isReg := by
  cases a
  case reg n => exact (isSome_ite _).trans (decide_eq_decide.2 (by omega))
  all_goals rfl

theorem asUnsigned4_isSome (a : Operand) : (asUnsigned 4 a).isSome = a.isLiteral := by
  cases a
  case num v => exact (isSome_ite _).trans (decide_eq_decide.2 (by omega))
  all_goals rfl

theorem asUnsigned8_isSome (a : Operand) : (asUnsigned 8 a).isSome = a.isByte := by
  cases a
  case num v => exact (isSome_ite _).trans (decide_eq_decide.2 (by omega))
  all_goals rfl

theorem asUnsigned2_isSome (a : Operand) : (asUnsigned 2 a).isSome = a.isSmall := by
  cases a
  case num v => exact (isSome_ite _).trans (decide_eq_decide.2 (by omega))
  all_goals rfl

theorem asOffset_isSome (a : Operand) : (asOffset a).isSome = a.isOffset := by
  cases a
  case num v => exact (isSome_ite _).trans (decide_eq_decide.2 (by omega))
  all_goals rfl

theorem asBitReg_isSome (a : Operand) : (asBitReg a).isSome = a.isBitReg := by
  cases a
  case reg n => exact (isSome_ite _).trans (decide_eq_decide.2 (by omega))
  case num v => exact (isSome_ite _).trans (decide_eq_decide.2 (by omega))
  all_goals rfl

theorem isR0_eq (a : Operand) : a.isR0 = decide (a = .reg 0) := by
  cases a <;> simp [Operand.isR0]

/-! Two operands. -/

theorem asTwoRegs_isSome (k : Reg → Reg → Instr) (a b : Operand) : (asTwoRegs k a b).isSome = (a.isReg && b.isReg) := by
  rw [← asReg_isSome, ← asReg_isSome, asTwoRegs]
  cases asReg a <;> cases asReg b <;> rfl

theorem asR0Literal_isSome (k : Nibble → Instr) (a b : Operand) :
    (asR0Literal k a b).isSome = (a.isR0 && b.isLiteral) := by
  rw [← asUnsigned4_isSome, isR0_eq, asR0Literal]
  split <;> simp [*]

theorem asBit_isSome (k : BitReg → BitVec 2 → Instr) (a b : Operand) :
    (asBit k a b).isSome = (a.isBitReg && b.isSmall) := by
  rw [← asBitReg_isSome, ← asUnsigned2_isSome, asBit]
  cases asBitReg a <;> cases asUnsigned 2 b <;> rfl

theorem asRegLiteral_isSome (k : Reg → Nibble → Instr) (a b : Operand) :
    ((asReg a).bind fun x => (asUnsigned 4 b).map (k x)).isSome = (a.isReg && b.isLiteral) := by
  rw [← asReg_isSome, ← asUnsigned4_isSome]
  cases asReg a <;> cases asUnsigned 4 b <;> rfl

/-- The seven forms of MOV are those of the table, one destination at a time (R71). -/
theorem asMov_isSome (a b : Operand) :
    (asMov a b).isSome =
      (a.isReg && b.isReg || a.isReg && b.isLiteral || a.isMem && b.isR0 || a.isR0 && b.isMem || a.isPc && b.isByte) := by
  have hpair (k : Reg → Reg → Instr) (x y : Nat) :
      (asTwoRegs k (.reg x) (.reg y)).isSome = (regInRange x && regInRange y) := asTwoRegs_isSome k _ _
  have hnum (v : Int) : (asUnsigned 8 (.num v)).isSome = byteInRange v := asUnsigned8_isSome _
  cases a
  case atPair x y =>
    simp only [asMov, isR0_eq]
    split <;> simp [*, Operand.isReg, Operand.isMem, Operand.isPc]
  case atNum v =>
    simp only [asMov, isR0_eq]
    split <;> simp [*, Operand.isReg, Operand.isMem, Operand.isPc]
  case reg n =>
    cases b
    case atPair x y =>
      simp only [asMov, isR0_eq]
      split <;> simp [*, Operand.isReg, Operand.isLiteral, Operand.isMem, Operand.isPc]
    case atNum v =>
      simp only [asMov, isR0_eq]
      split <;> simp [*, Operand.isReg, Operand.isLiteral, Operand.isMem, Operand.isPc]
    case reg m =>
      refine (asTwoRegs_isSome .movRxRy _ _).trans ?_
      simp [Operand.isLiteral, Operand.isMem, Operand.isPc]
    case num | rs | pc | cond =>
      refine (asRegLiteral_isSome .movRxN _ _).trans ?_
      simp [Operand.isReg, Operand.isMem, Operand.isPc]
  case pc =>
    cases b
    case atPair | atNum => simp [asMov, Operand.isReg, Operand.isMem, Operand.isR0, Operand.isByte]
    case num v =>
      refine Option.isSome_map.trans ((hnum v).trans ?_)
      simp [Operand.isReg, Operand.isMem, Operand.isR0, Operand.isPc, Operand.isByte]
    case reg | rs | pc | cond => rfl
  case num | cond | rs => cases b <;> rfl

/-! Statements, by the number of their operands. -/

theorem assembled_isSome (m : Mnemonic) : ∀ os, (assembled ⟨m, os⟩).isSome = operandsFit m os
  | [] => by cases m <;> rfl
  | [a] => by
    cases m
    case inc | dec | dsz | rrc => simp [assembled, operandsFit, asReg_isSome]
    case exr => simp [assembled, operandsFit, asUnsigned4_isSome]
    case lpc => simp [assembled, operandsFit, asUnsigned8_isSome]
    case jr => simp [assembled, operandsFit, asOffset_isSome]
    case skip => cases a <;> rfl
    all_goals rfl
  | [a, b] => by
    cases m
    case add | or | and | xor => simp [assembled, operandsFit, asTwoRegs_isSome, asR0Literal_isSome]
    case adc | sub | sbb => simp [assembled, operandsFit, asTwoRegs_isSome]
    case cp | ret => simp [assembled, operandsFit, asR0Literal_isSome]
    case bit | bset | bclr | btg => simp [assembled, operandsFit, asBit_isSome]
    case mov => exact asMov_isSome a b
    case skip => cases a <;> simp [assembled, operandsFit, Operand.isCond, asUnsigned2_isSome]
    all_goals rfl
  | a :: _ :: _ :: _ => by
    cases m
    case skip => cases a <;> rfl
    all_goals rfl

/-- Settles O53: the check and the reading agree operand by operand. -/
theorem wellFormedStatementsAssemble : Obligations.WellFormedStatementsAssemble := by
  intro st
  rw [Stmt.wf, ← assembled_isSome, Option.isSome_iff_exists]

end Sys2Proof.Machine
end
